-- ==== Sys2Proof/Word.lean ====
section
/-! DEFINITION. The words of CBCSEQ: bytes, 32-bit bus words, 16-byte blocks (spec/00_scope.md R6, R12). -/

namespace Sys2Proof

/-- One byte of a plaintext or ciphertext stream. -/
abbrev Byte := BitVec 8

/-- One 32-bit word of the register window (spec/20_memory.md R63). -/
abbrev Word := BitVec 32

/-- `Bytes16`: a sequence of exactly 16 bytes, byte 0 first in the stream; never read as an integer
(spec/00_scope.md R12, spec/20_memory.md R60). -/
abbrev Block := Vector Byte 16

/-- A 64-bit byte counter, wrapping modulo 2^64 (spec/10_state.md R38, R39). -/
abbrev Count := BitVec 64

/-- "16 zero bytes". -/
def zeroBlock : Block := Vector.replicate 16 0

end Sys2Proof
end

