-- ==== Sys2Proof/Config.lean ====
section
/-! DEFINITION. What is fixed for a whole run: the open parameters CIPHER and BASE, and the FIFO's capacity
(spec/00_scope.md R9, R10, R11; spec/92_eei_decisions.md D20, D27). -/

namespace Sys2Proof

/-- CIPHER = (E, D): a pair of total functions on 16-byte blocks (spec/00_scope.md R10). -/
structure Cipher where
  /-- E, the block encryption. -/
  enc : Block → Block
  /-- D, the block decryption. -/
  dec : Block → Block
deriving Inhabited

/-- The one property a claim may assume of CIPHER: D(E(x)) = x for every x (spec/00_scope.md R10, the hypothesis
`cipher_inverse` of spec/92_eei_decisions.md). -/
def Cipher.Inverse (c : Cipher) : Prop := ∀ x : Block, c.dec (c.enc x) = x

/-- The machine's own CIPHER. It has no body: nothing about it can be proved, so every claim holds whatever it is
(notes/assumptions/1.md). -/
opaque Config.cipher : Cipher

/-- BASE, the bus address of the 128-byte window, which the platform fixes (spec/00_scope.md R11). -/
opaque Config.base : Nat

/-- OFIFO_DEPTH, the capacity of the output FIFO in bytes (spec/00_scope.md R9). -/
def Config.ofifoDepth : Nat := 32

end Sys2Proof
end

