-- ==== Sys2Proof/Syntax.lean ====
section
/-! DEFINITION. The instructions (one constructor per row of spec/opcode_table.json), the host's bus accesses, and the
steps the world outside can order (spec/30_encoding.md R80 to R89; spec/00_scope.md R15). -/

namespace Sys2Proof

/-- The eight commands of spec/30_encoding.md R82. -/
inductive Command where
  | nop | initEnc | initDec | push | final | pop | abort | clear
deriving DecidableEq, Repr

/-- The two formats of spec/30_encoding.md R80. -/
inductive Format where
  /-- one host bus operation -/
  | bus
  /-- the data word of a bus write at offset 0x0C -/
  | cmd
deriving DecidableEq, Repr

/-- The direction of a bus operation. -/
inductive Dir where
  | read | write
deriving DecidableEq, Repr

/-- One access of the host to the bus, as it arrives: it may be inadmissible (spec/20_memory.md R63). -/
structure Access where
  dir : Dir
  /-- the width of the access in bits -/
  width : Nat
  /-- the byte offset from BASE; at or above 128 it is outside the window -/
  off : Nat
  /-- the data of a write (a read ignores it) -/
  data : Word
deriving DecidableEq, Repr

/-- A step ordered from outside: a host access, the sequencer's completion step, or a reset
(spec/00_scope.md R15). -/
inductive Event where
  | host (a : Access)
  | completion
  | reset
deriving DecidableEq, Repr

/-- The instructions. The first nine are of format CMD (`n` is CMD[6:4], `rsvd` is CMD[31:7]); the others are of
format BUS (`off` is the byte offset from BASE, `v` and `w` the data word). -/
inductive Instr where
  | nop (n : BitVec 3) (rsvd : BitVec 25)
  | initEnc (n : BitVec 3) (rsvd : BitVec 25)
  | initDec (n : BitVec 3) (rsvd : BitVec 25)
  | push (n : BitVec 3) (rsvd : BitVec 25)
  | final (n : BitVec 3) (rsvd : BitVec 25)
  | pop (n : BitVec 3) (rsvd : BitVec 25)
  | abort (n : BitVec 3) (rsvd : BitVec 25)
  | clear (n : BitVec 3) (rsvd : BitVec 25)
  | reservedOp (op : BitVec 4) (n : BitVec 3) (rsvd : BitVec 25)
  | rd (off : BitVec 7)
  | wrCtrl (v : Word)
  | wrStatus (v : Word)
  | cmd (w : Word)
  | wrIv0 (v : Word)
  | wrIv1 (v : Word)
  | wrIv2 (v : Word)
  | wrIv3 (v : Word)
  | wrDin (v : Word)
  | wrReadOnly (off : BitVec 7) (v : Word)
  | wrReserved (off : BitVec 7) (v : Word)
deriving DecidableEq, Repr

/-- The format of an instruction's row. -/
def Instr.format : Instr → Format
  | .nop _ _ | .initEnc _ _ | .initDec _ _ | .push _ _ | .final _ _ | .pop _ _ | .abort _ _ | .clear _ _
  | .reservedOp _ _ _ => .cmd
  | .rd _ | .wrCtrl _ | .wrStatus _ | .cmd _ | .wrIv0 _ | .wrIv1 _ | .wrIv2 _ | .wrIv3 _ | .wrDin _
  | .wrReadOnly _ _ | .wrReserved _ _ => .bus

end Sys2Proof
end

