-- ==== Sys2Proof/WellFormed.lean ====
section
/-! DEFINITION. Which terms of Instr are instructions: the checks a constructor's type does not make
(spec/30_encoding.md R86, R89; spec/20_memory.md R63). -/

namespace Sys2Proof

/-- An offset inside the window that is a multiple of 4 (spec/20_memory.md R63). -/
def aligned (off : BitVec 7) : Bool := off.toNat % 4 == 0

/-- The offsets of the read-only registers: ID, CHAIN0 to CHAIN3, DOUT, LEVEL, CONFIG and the counter words
(spec/40_command_issue.md R109). -/
def readOnlyOffsets : List Nat :=
  [0x00, 0x20, 0x24, 0x28, 0x2C, 0x34, 0x38, 0x3C, 0x40, 0x44, 0x48, 0x4C]

/-- Reserved space: the words at 0x50 to 0x7C (spec/40_command_issue.md R110). -/
def inReservedSpace (off : BitVec 7) : Bool := aligned off && decide (0x50 ≤ off.toNat)

/-- The well-formed instructions. -/
def Instr.wellFormed : Instr → Bool
  | .reservedOp op _ _ => decide (8 ≤ op.toNat)
  | .rd off => aligned off
  | .wrReadOnly off _ => readOnlyOffsets.contains off.toNat
  | .wrReserved off _ => inReservedSpace off
  | .nop _ _ | .initEnc _ _ | .initDec _ _ | .push _ _ | .final _ _ | .pop _ _ | .abort _ _ | .clear _ _
  | .wrCtrl _ | .wrStatus _ | .cmd _ | .wrIv0 _ | .wrIv1 _ | .wrIv2 _ | .wrIv3 _ | .wrDin _ => true

end Sys2Proof
end

