-- ==== Sys2Proof/Decode.lean ====
section
/-! DEFINITION. The decoder of both formats, total on every access and every word, and the encoder beside it
(spec/30_encoding.md R80 to R89). -/

namespace Sys2Proof

/-- Why an access or a word is not decoded. -/
inductive Reject where
  /-- an access that is not 32 bits wide (spec/20_memory.md R63) -/
  | notWord
  /-- an access outside the window [0x00, 0x7F] (spec/20_memory.md R63) -/
  | outsideWindow
  /-- an access whose offset is no multiple of 4 (spec/20_memory.md R63) -/
  | misaligned
  /-- read as format CMD, but no write at offset 0x0C (spec/30_encoding.md R80) -/
  | noCommandWrite
deriving DecidableEq, Repr

/-- OP = CMD[3:0] (spec/30_encoding.md R81). -/
def cmdOp (w : Word) : BitVec 4 := w.extractLsb' 0 4

/-- N = CMD[6:4] (spec/30_encoding.md R81). -/
def cmdN (w : Word) : BitVec 3 := w.extractLsb' 4 3

/-- RSVD = CMD[31:7] (spec/30_encoding.md R81). -/
def cmdRsvd (w : Word) : BitVec 25 := w.extractLsb' 7 25

/-- The command an OP value names; none for the reserved values 0x8 to 0xF (spec/30_encoding.md R82). -/
def commandOf (op : BitVec 4) : Option Command :=
  match op.toNat with
  | 0 => some .nop
  | 1 => some .initEnc
  | 2 => some .initDec
  | 3 => some .push
  | 4 => some .final
  | 5 => some .pop
  | 6 => some .abort
  | 7 => some .clear
  | _ => none

/-- A command's OP value (spec/30_encoding.md R82). -/
def opCode : Command → BitVec 4
  | .nop => 0
  | .initEnc => 1
  | .initDec => 2
  | .push => 3
  | .final => 4
  | .pop => 5
  | .abort => 6
  | .clear => 7

/-- Format CMD: every 32-bit word is one of the nine rows (spec/30_encoding.md R82, R86, R88). -/
def decodeCmd (w : Word) : Instr :=
  match commandOf (cmdOp w) with
  | some .nop => .nop (cmdN w) (cmdRsvd w)
  | some .initEnc => .initEnc (cmdN w) (cmdRsvd w)
  | some .initDec => .initDec (cmdN w) (cmdRsvd w)
  | some .push => .push (cmdN w) (cmdRsvd w)
  | some .final => .final (cmdN w) (cmdRsvd w)
  | some .pop => .pop (cmdN w) (cmdRsvd w)
  | some .abort => .abort (cmdN w) (cmdRsvd w)
  | some .clear => .clear (cmdN w) (cmdRsvd w)
  | none => .reservedOp (cmdOp w) (cmdN w) (cmdRsvd w)

/-- Is the access admitted (spec/20_memory.md R63)? If not, why. -/
def admission (a : Access) : Option Reject :=
  if a.width ≠ 32 then some .notWord
  else if 128 ≤ a.off then some .outsideWindow
  else if a.off % 4 ≠ 0 then some .misaligned
  else none

/-- The row of a write at an admitted offset (spec/30_encoding.md R89). -/
def decodeWrite (off : Nat) (v : Word) : Instr :=
  match off with
  | 0x04 => .wrCtrl v
  | 0x08 => .wrStatus v
  | 0x0C => .cmd v
  | 0x10 => .wrIv0 v
  | 0x14 => .wrIv1 v
  | 0x18 => .wrIv2 v
  | 0x1C => .wrIv3 v
  | 0x30 => .wrDin v
  | _ => if 0x50 ≤ off then .wrReserved (BitVec.ofNat 7 off) v else .wrReadOnly (BitVec.ofNat 7 off) v

/-- Format BUS: total on every admitted access, the others are rejected by name (spec/30_encoding.md R89). -/
def decodeBus (a : Access) : Except Reject Instr :=
  match admission a with
  | some r => .error r
  | none =>
    match a.dir with
    | .read => .ok (.rd (BitVec.ofNat 7 a.off))
    | .write => .ok (decodeWrite a.off a.data)

/-- The decoder: an access read as one format or the other. -/
def decode (f : Format) (a : Access) : Except Reject Instr :=
  match f with
  | .bus => decodeBus a
  | .cmd =>
    match decodeBus a with
    | .ok (.cmd w) => .ok (decodeCmd w)
    | .ok _ => .error .noCommandWrite
    | .error r => .error r

/-- The instruction read from a table row's bits. The rows the table numbers are those of format CMD, one 32-bit word
each; a wider number is no command word. -/
def decodeTableWord (nbits w : Nat) : Option Instr :=
  if nbits ≤ 32 then some (decodeCmd (BitVec.ofNat 32 (w % 2 ^ nbits))) else none

/-- The command word OP | N<<4 | RSVD<<7 (spec/30_encoding.md R81). -/
def commandWord (op : BitVec 4) (n : BitVec 3) (rsvd : BitVec 25) : Word := rsvd ++ n ++ op

/-- A 32-bit write at an offset: `BusWrite(off, v)` (spec/00_scope.md R14). -/
def busWriteAt (off : Nat) (v : Word) : Access := ⟨.write, 32, off, v⟩

/-- A 32-bit read at an offset: `BusRead(off)` (spec/00_scope.md R14). -/
def busReadAt (off : Nat) : Access := ⟨.read, 32, off, 0⟩

/-- The access the host makes at the bus address `addr`, for a window based at `base`: `MemRead` and `MemWrite` of
spec/00_scope.md R14. An address below BASE is outside the window. -/
def accessAt (base addr : Nat) (dir : Dir) (width : Nat) (v : Word) : Access :=
  ⟨dir, width, if base ≤ addr then addr - base else 128, v⟩

/-- The encoder: the bus operation of an instruction (spec/30_encoding.md R80, R90). -/
def encode : Instr → Access
  | .nop n r => busWriteAt 0x0C (commandWord 0 n r)
  | .initEnc n r => busWriteAt 0x0C (commandWord 1 n r)
  | .initDec n r => busWriteAt 0x0C (commandWord 2 n r)
  | .push n r => busWriteAt 0x0C (commandWord 3 n r)
  | .final n r => busWriteAt 0x0C (commandWord 4 n r)
  | .pop n r => busWriteAt 0x0C (commandWord 5 n r)
  | .abort n r => busWriteAt 0x0C (commandWord 6 n r)
  | .clear n r => busWriteAt 0x0C (commandWord 7 n r)
  | .reservedOp op n r => busWriteAt 0x0C (commandWord op n r)
  | .rd off => busReadAt off.toNat
  | .wrCtrl v => busWriteAt 0x04 v
  | .wrStatus v => busWriteAt 0x08 v
  | .cmd w => busWriteAt 0x0C w
  | .wrIv0 v => busWriteAt 0x10 v
  | .wrIv1 v => busWriteAt 0x14 v
  | .wrIv2 v => busWriteAt 0x18 v
  | .wrIv3 v => busWriteAt 0x1C v
  | .wrDin v => busWriteAt 0x30 v
  | .wrReadOnly off v => busWriteAt off.toNat v
  | .wrReserved off v => busWriteAt off.toNat v

end Sys2Proof
end

