-- ==== Sys2Proof/Machine/State.lean ====
section
/-! DEFINITION. The state of CBCSEQ as plain data: the record of spec/10_state.md R45 field by field, and the model's own
two fields for the host beside it; why a step can stop; the reset state (R50). -/

namespace Sys2Proof.Machine

open Sys2Proof

/-- STATE, the operation state (spec/10_state.md R22). The codes 5, 6 and 7 are no value of this type, so they are never
produced. -/
inductive OpState where
  | idle | enc | dec | done | error
deriving DecidableEq, Repr

/-- STATUS.ERR, the stream error codes 0 to 3 (spec/10_state.md R26, spec/60_exceptions.md R204); 4 to 15 are never
produced. -/
inductive StreamErr where
  | none | truncatedCiphertext | badPadding | ioError
deriving DecidableEq, Repr

/-- STATUS.CERR, the command error codes 0 to 9 (spec/60_exceptions.md R201); 10 to 15 are never produced. -/
inductive CmdErr where
  | none | busy | reservedOp | badCount | badState | noIv | outFull | outEmpty | notDrained | locked
deriving DecidableEq, Repr

/-- PEND, the accepted command awaiting completion: its opcode, its N field, and DIN at acceptance
(spec/10_state.md R48). -/
structure Pend where
  op : Command
  n : BitVec 3
  din : Word
deriving DecidableEq, Repr

/-- The state of spec/10_state.md R45, then the model's own fields `rdata` and `inputs`. -/
structure State where
  /-- STATE -/
  state : OpState
  /-- BUSY -/
  busy : Bool
  /-- PEND -/
  pend : Option Pend
  /-- ERR -/
  err : StreamErr
  /-- CERR -/
  cerr : CmdErr
  /-- IVW, bit n for IVn -/
  ivw : BitVec 4
  /-- CMPL_P -/
  cmplP : Bool
  /-- DONE_P -/
  doneP : Bool
  /-- ERR_P -/
  errP : Bool
  /-- CERR_P -/
  cerrP : Bool
  /-- CTRL[3:0]: IE_CMPL, IE_DONE, IE_ERR, IE_CERR from bit 0 up -/
  ctrl : BitVec 4
  /-- IV0 to IV3 -/
  iv : Block
  /-- CHAIN0 to CHAIN3 -/
  chain : Block
  /-- BUF, the block being gathered -/
  buf : Block
  /-- CNT, the bytes held in BUF -/
  cnt : Fin 16
  /-- HB, the decrypt hold-back -/
  hb : Block
  /-- HBV, the hold-back is valid -/
  hbv : Bool
  /-- the output FIFO, oldest byte first -/
  ofifo : List Byte
  /-- DIN -/
  din : Word
  /-- DOUT -/
  dout : Word
  /-- IN_BYTES -/
  inBytes : Count
  /-- OUT_BYTES -/
  outBytes : Count
  /-- the MODEL's own: the word the host's latest read returned, none before the first (notes/assumptions/3.md) -/
  rdata : Option Word
  /-- the MODEL's own: the steps ordered from outside that are still to come, the next one first
  (notes/assumptions/2.md) -/
  inputs : List Event
deriving DecidableEq, Repr

/-- Why the machine is stuck. -/
inductive Fault where
  /-- A completion step with BUSY = 1 and PEND = none: spec/40_command_issue.md R108 takes PEND apart and gives this state
  no meaning. Raised by step; no state with the invariant R49 (f) reaches it. Safe: it claims nothing. -/
  | completionWithoutPend
deriving DecidableEq, Repr

/-- Why the model makes no claim about a step. -/
inductive Refusal where
  /-- An instruction without a meaning. Raised by exec's refused arms alone (there are none). Safe. -/
  | notModelled (mnemonic : String)
  /-- A host access that is not a 32-bit access at a multiple of 4 inside the window: "a model refuses any other access"
  (spec/20_memory.md R63, the open parameter BUS_NONWORD). Raised by step, and by a read with such an offset. Safe. -/
  | notAdmitted (why : Reject)
  /-- A term of Instr that is no instruction: an offset or an OP value outside its row of the opcode table
  (spec/30_encoding.md R86, R89). No access decodes to one. Raised by execWrReadOnly, execWrReserved and
  execReservedOp. Safe. -/
  | illFormed
deriving DecidableEq, Repr

/-- The machine right after reset (spec/10_state.md R45, R50; spec/70_reset_and_hazards.md R240). -/
def State.reset : State where
  state := .idle
  busy := false
  pend := none
  err := .none
  cerr := .none
  ivw := 0
  cmplP := false
  doneP := false
  errP := false
  cerrP := false
  ctrl := 0
  iv := zeroBlock
  chain := zeroBlock
  buf := zeroBlock
  cnt := 0
  hb := zeroBlock
  hbv := false
  ofifo := []
  din := 0
  dout := 0
  inBytes := 0
  outBytes := 0
  rdata := none
  inputs := []

end Sys2Proof.Machine
end

