-- ==== Sys2Proof/Machine/Operands.lean ====
section
/-! DEFINITION. The operand forms: byte lanes of words and of block registers, PUSH's data bytes, POP's result, the count
N, and the codes of the named fields (spec/20_memory.md R60, R61; spec/30_encoding.md R83 to R85). -/

namespace Sys2Proof.Machine

open Sys2Proof

/-- Byte j of a word is bits [8j+7:8j] (spec/20_memory.md R60). -/
def byteOf (w : Word) (j : Nat) : Byte := w.extractLsb' (8 * j) 8

/-- The word whose bytes 0 to 3 are the arguments, in stream order (spec/20_memory.md R60). -/
def wordOf (b0 b1 b2 b3 : Byte) : Word := b3 ++ b2 ++ b1 ++ b0

/-- Word n of a block register: byte j of it is byte 4n+j of the block (spec/20_memory.md R61). -/
def blockWord (b : Block) (n : Fin 4) : Word :=
  wordOf b[4 * n.val] b[4 * n.val + 1] b[4 * n.val + 2] b[4 * n.val + 3]

/-- A block register with word n replaced (spec/40_command_issue.md R101). -/
def setBlockWord (b : Block) (n : Fin 4) (v : Word) : Block :=
  Vector.ofFn fun i : Fin 16 => if i.val / 4 = n.val then byteOf v (i.val % 4) else b[i]

/-- N is legal for PUSH and POP: 1 to 4 (spec/30_encoding.md R83). -/
def countLegal (n : BitVec 3) : Bool := decide (1 ≤ n.toNat) && decide (n.toNat ≤ 4)

/-- PUSH's data operand: bytes 0 to n-1 of the latched DIN, in stream order (spec/30_encoding.md R84). -/
def dataBytes (n : BitVec 3) (d : Word) : List Byte := (List.range n.toNat).map (byteOf d)

/-- POP's result: the popped bytes in lanes 0, 1, 2, 3, the other lanes 0 (spec/30_encoding.md R85). -/
def packBytes (bs : List Byte) : Word := wordOf (bs.getD 0 0) (bs.getD 1 0) (bs.getD 2 0) (bs.getD 3 0)

/-- The code of STATE (spec/10_state.md R22). -/
def stateCode : OpState → BitVec 3
  | .idle => 0
  | .enc => 1
  | .dec => 2
  | .done => 3
  | .error => 4

/-- The code of STATUS.ERR (spec/60_exceptions.md R204). -/
def streamErrCode : StreamErr → BitVec 4
  | .none => 0
  | .truncatedCiphertext => 1
  | .badPadding => 2
  | .ioError => 3

/-- The code of STATUS.CERR (spec/60_exceptions.md R201). -/
def cmdErrCode : CmdErr → BitVec 4
  | .none => 0
  | .busy => 1
  | .reservedOp => 2
  | .badCount => 3
  | .badState => 4
  | .noIv => 5
  | .outFull => 6
  | .outEmpty => 7
  | .notDrained => 8
  | .locked => 9

/-- ID, hardwired (spec/10_state.md R41). -/
def idWord : Word := 0x0CBC0001#32

/-- CONFIG, hardwired: BLOCK = 16 in [7:0], OFIFO_DEPTH in [15:8] (spec/10_state.md R40). -/
def configWord : Word := 0#16 ++ BitVec.ofNat 8 Config.ofifoDepth ++ 16#8

end Sys2Proof.Machine
end

