-- ==== Sys2Proof/Machine/Flags.lean ====
section
/-! DEFINITION. The flags: the interrupt level, the STATUS and LEVEL words, the write-1-to-clear of the pending bits
(spec/10_state.md R25 to R30, R37; spec/40_command_issue.md R103). -/

namespace Sys2Proof.Machine

open Sys2Proof

/-- STATUS.IRQ, which is also the level of the irq output (spec/10_state.md R30, spec/60_exceptions.md R209). -/
def irq (s : State) : Bool :=
  (s.cmplP && s.ctrl.getLsbD 0) || (s.doneP && s.ctrl.getLsbD 1) || (s.errP && s.ctrl.getLsbD 2)
    || (s.cerrP && s.ctrl.getLsbD 3)

/-- The STATUS word, bits 31:21 reading 0 (spec/10_state.md R25). -/
def statusWord (s : State) : Word :=
  0#11 ++ BitVec.ofBool (irq s) ++ BitVec.ofBool s.cerrP ++ BitVec.ofBool s.errP ++ BitVec.ofBool s.doneP
    ++ BitVec.ofBool s.cmplP ++ s.ivw ++ cmdErrCode s.cerr ++ streamErrCode s.err ++ BitVec.ofBool s.busy
    ++ stateCode s.state

/-- The LEVEL word: OCOUNT, CNT and HBV (spec/10_state.md R37). -/
def levelWord (s : State) : Word :=
  0#15 ++ BitVec.ofBool s.hbv ++ 0#4 ++ BitVec.ofNat 4 s.cnt.val ++ 0#2 ++ BitVec.ofNat 6 s.ofifo.length

/-- The CTRL word, bits 31:4 reading 0 (spec/10_state.md R33). -/
def ctrlWord (s : State) : Word := s.ctrl.setWidth 32

/-- A write of STATUS: a 1 in bits 16 to 19 clears that pending bit, and bit 19 clears CERR with it; every other bit is
ignored (spec/40_command_issue.md R103). -/
def clearPending (v : Word) (s : State) : State :=
  { s with
    cmplP := s.cmplP && !v.getLsbD 16
    doneP := s.doneP && !v.getLsbD 17
    errP := s.errP && !v.getLsbD 18
    cerrP := s.cerrP && !v.getLsbD 19
    cerr := if v.getLsbD 19 then .none else s.cerr }

end Sys2Proof.Machine
end

