-- ==== Sys2Proof/Machine/Ops.lean ====
section
/-! DEFINITION. The shared operations: the two ways of taking an error (CmdError and StreamError) and the return from one,
the output FIFO, the CBC datapath with its padding, the start of an operation, a command's acceptance checks, its
acceptance and its completion, and the register window as the host reads it. -/

namespace Sys2Proof.Machine

open Sys2Proof

/-! ## Errors: taking one, and the return (spec/60_exceptions.md §1, §4) -/

/-- `raise CmdError(code)`: CERR and CERR_P, and nothing else (spec/60_exceptions.md R200). -/
def cmdError (e : CmdErr) (s : State) : State := { s with cerr := e, cerrP := true }

/-- `raise StreamError(code)`: the operation ends in ERROR, its unread output and its data path are cleared; CHAIN, the
counters, DOUT, IV and IVW are kept (spec/60_exceptions.md R203). -/
def streamError (e : StreamErr) (s : State) : State :=
  { s with
    state := .error
    err := e
    ofifo := []
    buf := zeroBlock
    cnt := 0
    hb := zeroBlock
    hbv := false
    errP := true }

/-- The return to IDLE: what CLEAR does (spec/41_session_commands.md R136, spec/60_exceptions.md R214). -/
def returnToIdle (s : State) : State :=
  { s with
    state := .idle
    err := .none
    buf := zeroBlock
    cnt := 0
    hb := zeroBlock
    hbv := false }

/-! ## The output FIFO (spec/10_state.md R47, R39; spec/00_scope.md R14) -/

/-- `ofifo.push(bs)`: at the tail, and OUT_BYTES counts the bytes modulo 2^64 (spec/10_state.md R39). -/
def fifoPush (bs : List Byte) (s : State) : State :=
  { s with ofifo := s.ofifo ++ bs, outBytes := s.outBytes + BitVec.ofNat 64 bs.length }

/-- POP of n bytes: they leave the head of the FIFO, oldest first, and DOUT shows them
(spec/43_stream_commands.md R176). -/
def fifoPop (n : Nat) (s : State) : State :=
  { s with ofifo := s.ofifo.drop n, dout := packBytes (s.ofifo.take n) }

/-! ## The CBC datapath (spec/42_cbc_datapath.md) -/

/-- XOR16 (spec/42_cbc_datapath.md R150). -/
def xor16 (a b : Block) : Block := Vector.ofFn fun i : Fin 16 => a[i] ^^^ b[i]

/-- EncBlock (spec/42_cbc_datapath.md R151). -/
def encBlock (c : Cipher) (p : Block) (s : State) : State :=
  let ct := c.enc (xor16 p s.chain)
  { fifoPush ct.toList s with chain := ct }

/-- The first half of DecBlock: a held-back block is now known not to be the last one, and is output
(spec/42_cbc_datapath.md R152). -/
def releaseHoldBack (s : State) : State := if s.hbv then fifoPush s.hb.toList s else s

/-- DecBlock (spec/42_cbc_datapath.md R152). -/
def decBlock (c : Cipher) (ct : Block) (s : State) : State :=
  { releaseHoldBack s with hb := xor16 (c.dec ct) s.chain, hbv := true, chain := ct }

/-- A complete block is processed by EncBlock in ENC and by DecBlock otherwise (spec/43_stream_commands.md R171). -/
def processBlock (c : Cipher) (b : Block) (s : State) : State :=
  if s.state = .enc then encBlock c b s else decBlock c b s

/-- AccByte: the sixteenth byte completes the block, which is processed at once; BUF keeps it as stale contents
(spec/43_stream_commands.md R171, spec/10_state.md R44). -/
def accByte (c : Cipher) (s : State) (b : Byte) : State :=
  let buf := s.buf.set s.cnt b
  if h : s.cnt.val + 1 < 16 then { s with buf := buf, cnt := ⟨s.cnt.val + 1, h⟩ }
  else { processBlock c buf { s with buf := buf } with cnt := 0 }

/-- PUSH's loop over its data bytes, byte 0 first (spec/43_stream_commands.md R170). -/
def accBytes (c : Cipher) (bs : List Byte) (s : State) : State := bs.foldl (accByte c) s

/-- Pad: bytes CNT to 15 become k = 16 - CNT (PKCS#7; spec/42_cbc_datapath.md R155). -/
def padBlock (buf : Block) (cnt : Fin 16) : Block :=
  Vector.ofFn fun i : Fin 16 => if i < cnt then buf[i] else BitVec.ofNat 8 (16 - cnt.val)

/-- The pad count k of a block: its last byte (spec/42_cbc_datapath.md R158). -/
def padCount (hb : Block) : Nat := hb[15].toNat

/-- PadCheck's ok: 1 ≤ k ≤ 16 and each of the last k bytes is k (spec/42_cbc_datapath.md R158). -/
def padOk (hb : Block) : Bool :=
  decide (1 ≤ padCount hb) && decide (padCount hb ≤ 16)
    && (hb.toList.drop (16 - padCount hb)).all (fun b => b == hb[15])

/-- Unpad: bytes 0 to 15-k (spec/42_cbc_datapath.md R159). -/
def unpad (hb : Block) (k : Nat) : List Byte := hb.toList.take (16 - k)

/-! ## The course of an operation -/

/-- InitOp and the new STATE: what INIT_ENC and INIT_DEC do (spec/41_session_commands.md R132 to R134). -/
def initOp (mode : OpState) (s : State) : State :=
  { s with
    state := mode
    chain := s.iv
    buf := zeroBlock
    cnt := 0
    hb := zeroBlock
    hbv := false
    inBytes := 0
    outBytes := 0
    err := .none
    ivw := 0 }

/-- ExecPUSH (spec/43_stream_commands.md R170, R175). -/
def pushOp (c : Cipher) (n : BitVec 3) (d : Word) (s : State) : State :=
  let t := accBytes c (dataBytes n d) s
  { t with inBytes := t.inBytes + BitVec.ofNat 64 n.toNat }

/-- FinalEnc: pad the last block and encrypt it (spec/43_stream_commands.md R179). -/
def finalEnc (c : Cipher) (s : State) : State :=
  let blk := padBlock s.buf s.cnt
  { encBlock c blk { s with buf := blk } with cnt := 0, state := .done, doneP := true }

/-- Unstrip: the last block without its padding is output, and the operation is DONE
(spec/43_stream_commands.md R184). -/
def unstrip (k : Nat) (s : State) : State :=
  { fifoPush (unpad s.hb k) s with hb := zeroBlock, hbv := false, state := .done, doneP := true }

/-- FinalDec: the checks in their order (spec/43_stream_commands.md R180 to R184). -/
def finalDec (s : State) : State :=
  if s.cnt ≠ 0 then streamError .truncatedCiphertext s
  else if !s.hbv then streamError .badPadding s
  else if padOk s.hb then unstrip (padCount s.hb) s
  else streamError .badPadding s

/-- ExecFINAL (spec/43_stream_commands.md R178). -/
def finalOp (c : Cipher) (s : State) : State := if s.state = .enc then finalEnc c s else finalDec s

/-! ## A command: its checks, its acceptance, its completion (spec/40_command_issue.md §3, §4) -/

/-- Legal(op) (spec/40_command_issue.md R111). -/
def legalIn : Command → OpState → Bool
  | .nop, _ => true
  | .initEnc, st | .initDec, st => st == .idle
  | .push, st | .final, st => st == .enc || st == .dec
  | .pop, _ => true
  | .abort, st => st == .enc || st == .dec || st == .done
  | .clear, st => st == .idle || st == .done || st == .error

/-- Does a PUSH of n bytes complete a block (spec/40_command_issue.md R113)? -/
def completesBlock (n : BitVec 3) (s : State) : Bool := decide (16 ≤ s.cnt.val + n.toNat)

/-- How many bytes a PUSH that completes a block outputs (spec/40_command_issue.md R113). -/
def emitSize (s : State) : Nat := if s.state = .enc then 16 else if s.hbv then 16 else 0

/-- NeedsRoom(op, n): there is room for the output (spec/40_command_issue.md R113). -/
def hasRoom (c : Command) (n : BitVec 3) (s : State) : Bool :=
  match c with
  | .push => !completesBlock n s || decide (s.ofifo.length + emitSize s ≤ Config.ofifoDepth)
  | .final => decide (s.ofifo.length + 16 ≤ Config.ofifoDepth)
  | .nop | .initEnc | .initDec | .pop | .abort | .clear => true

/-- Does the command use N (spec/30_encoding.md R82)? -/
def usesCount (c : Command) : Bool := c == .push || c == .pop

/-- Is the command INIT_ENC or INIT_DEC? -/
def isInit (c : Command) : Bool := c == .initEnc || c == .initDec

/-- Checks 3 to 8 of spec/40_command_issue.md R105, in their order: `.none` when each passes, else the code of the first
that fails. -/
def commandFault (c : Command) (n : BitVec 3) (s : State) : CmdErr :=
  if usesCount c && !countLegal n then .badCount
  else if !legalIn c s.state then .badState
  else if isInit c && s.ivw != 0b1111#4 then .noIv
  else if !hasRoom c n s then .outFull
  else if c == .pop && decide (s.ofifo.length < n.toNat) then .outEmpty
  else if c == .clear && s.state == .done && !s.ofifo.isEmpty then .notDrained
  else .none

/-- Accept(op, n): BUSY and PEND, with DIN latched (spec/40_command_issue.md R106). -/
def accept (c : Command) (n : BitVec 3) (s : State) : State :=
  { s with busy := true, pend := some ⟨c, n, s.din⟩ }

/-- A write of CMD with the fields OP and N: checked, then accepted or refused (spec/40_command_issue.md R105). -/
def issue (op : BitVec 4) (n : BitVec 3) (s : State) : State :=
  if s.busy then cmdError .busy s
  else
    match commandOf op with
    | none => cmdError .reservedOp s
    | some c =>
      match commandFault c n s with
      | .none => accept c n s
      | e => cmdError e s

/-- The end of a completion step: PEND, BUSY and CMPL_P (spec/40_command_issue.md R108). -/
def finish (s : State) : State := { s with pend := none, busy := false, cmplP := true }

/-- The effect of an accepted command: the case table of Complete() (spec/40_command_issue.md R108). -/
def commandEffect (c : Cipher) (p : Pend) (s : State) : State :=
  match p.op with
  | .nop => s
  | .initEnc => initOp .enc s
  | .initDec => initOp .dec s
  | .push => pushOp c p.n p.din s
  | .final => finalOp c s
  | .pop => fifoPop p.n.toNat s
  | .abort => streamError .ioError s
  | .clear => returnToIdle s

/-- Complete(): one atomic step (spec/40_command_issue.md R108). -/
def complete (c : Cipher) (p : Pend) (s : State) : State := finish (commandEffect c p s)

/-- The DIN latched for a command that is pending with this N, when its completion is the step that is due; none when
this command is not the pending one (spec/10_state.md R48). -/
def pendingDin (c : Command) (n : BitVec 3) (s : State) : Option Word :=
  match s.busy, s.pend with
  | true, some p => if p.op = c ∧ p.n = n then some p.din else none
  | _, _ => none

/-- The two steps of a command (spec/40_command_issue.md R105, R108): where it is the pending one, its completion, with
the effect given; otherwise the host's write of it to CMD. -/
def commandStep (c : Command) (n : BitVec 3) (effect : Word → State → State) (s : State) : State :=
  match pendingDin c n s with
  | some d => finish (effect d s)
  | none => issue (opCode c) n s

/-! ## The register window (spec/40_command_issue.md §1, §2) -/

/-- BusRead(off) (spec/40_command_issue.md R100; spec/10_state.md R42, R43). -/
def busRead (s : State) (off : Nat) : Word :=
  match off with
  | 0x00 => idWord
  | 0x04 => ctrlWord s
  | 0x08 => statusWord s
  | 0x0C => 0
  | 0x10 => blockWord s.iv 0
  | 0x14 => blockWord s.iv 1
  | 0x18 => blockWord s.iv 2
  | 0x1C => blockWord s.iv 3
  | 0x20 => blockWord s.chain 0
  | 0x24 => blockWord s.chain 1
  | 0x28 => blockWord s.chain 2
  | 0x2C => blockWord s.chain 3
  | 0x30 => s.din
  | 0x34 => s.dout
  | 0x38 => levelWord s
  | 0x3C => configWord
  | 0x40 => s.inBytes.extractLsb' 0 32
  | 0x44 => s.inBytes.extractLsb' 32 32
  | 0x48 => s.outBytes.extractLsb' 0 32
  | 0x4C => s.outBytes.extractLsb' 32 32
  | _ => 0

/-- An accepted IV write: word n of IV, and bit n of IVW (spec/40_command_issue.md R101). -/
def storeIv (n : Fin 4) (v : Word) (s : State) : State :=
  { s with iv := setBlockWord s.iv n v, ivw := s.ivw ||| BitVec.ofNat 4 (2 ^ n.val) }

/-- A write of IVn: locked outside IDLE and while BUSY (spec/40_command_issue.md R101). -/
def writeIv (n : Fin 4) (v : Word) (s : State) : State :=
  if s.busy || s.state != .idle then cmdError .locked s else storeIv n v s

/-- A write of CTRL: bits 3:0 (spec/40_command_issue.md R102). -/
def writeCtrl (v : Word) (s : State) : State := { s with ctrl := v.extractLsb' 0 4 }

/-- A write of DIN (spec/40_command_issue.md R104). -/
def writeDin (v : Word) (s : State) : State := { s with din := v }

/-- The word a read returns goes to the host, and nothing else changes (spec/20_memory.md R64). -/
def readTo (off : Nat) (s : State) : State := { s with rdata := some (busRead s off) }

end Sys2Proof.Machine
end

