-- ==== Sys2Proof/Machine/Bus.lean ====
section
/-! DEFINITION. The meanings of the host's bus operations (spec/40_command_issue.md). -/

namespace Sys2Proof.Machine

open Sys2Proof

/-- A register read (spec/40_command_issue.md R100); a misaligned offset is not admitted (spec/20_memory.md R63). -/
def execRd (off : BitVec 7) (s : State) : Host.Outcome State Fault Refusal :=
  if aligned off then .next (readTo off.toNat s) else .refused (.notAdmitted .misaligned)

/-- A write of CTRL (spec/40_command_issue.md R102). -/
def execWrCtrl (v : Word) (s : State) : Host.Outcome State Fault Refusal := .next (writeCtrl v s)

/-- A write of STATUS (spec/40_command_issue.md R103). -/
def execWrStatus (v : Word) (s : State) : Host.Outcome State Fault Refusal := .next (clearPending v s)

/-- A write of CMD: the command's checks, then its acceptance or its refusal (spec/40_command_issue.md R105, R106). -/
def execCmd (w : Word) (s : State) : Host.Outcome State Fault Refusal := .next (issue (cmdOp w) (cmdN w) s)

/-- A write of IV0 (spec/40_command_issue.md R101). -/
def execWrIv0 (v : Word) (s : State) : Host.Outcome State Fault Refusal := .next (writeIv 0 v s)

/-- A write of IV1 (spec/40_command_issue.md R101). -/
def execWrIv1 (v : Word) (s : State) : Host.Outcome State Fault Refusal := .next (writeIv 1 v s)

/-- A write of IV2 (spec/40_command_issue.md R101). -/
def execWrIv2 (v : Word) (s : State) : Host.Outcome State Fault Refusal := .next (writeIv 2 v s)

/-- A write of IV3 (spec/40_command_issue.md R101). -/
def execWrIv3 (v : Word) (s : State) : Host.Outcome State Fault Refusal := .next (writeIv 3 v s)

/-- A write of DIN (spec/40_command_issue.md R104). -/
def execWrDin (v : Word) (s : State) : Host.Outcome State Fault Refusal := .next (writeDin v s)

/-- A write to a read-only register is ignored, whatever the word (spec/40_command_issue.md R109). -/
def execWrReadOnly (off : BitVec 7) (s : State) : Host.Outcome State Fault Refusal :=
  if readOnlyOffsets.contains off.toNat then .next s else .refused .illFormed

/-- A write to reserved space is ignored, whatever the word (spec/40_command_issue.md R110). -/
def execWrReserved (off : BitVec 7) (s : State) : Host.Outcome State Fault Refusal :=
  if inReservedSpace off then .next s else .refused .illFormed

end Sys2Proof.Machine
end

