-- ==== Sys2Proof/Machine/Session.lean ====
section
/-! DEFINITION. The meanings of the session commands and of the reserved opcodes (spec/41_session_commands.md,
spec/30_encoding.md R86). RSVD, and N where the command does not use it, change nothing (R83, R87). -/

namespace Sys2Proof.Machine

open Sys2Proof

/-- NOP (spec/41_session_commands.md R131). -/
def execNop (n : BitVec 3) (s : State) : Host.Outcome State Fault Refusal :=
  .next (commandStep .nop n (fun _ t => t) s)

/-- INIT_ENC (spec/41_session_commands.md R132, R134). -/
def execInitEnc (n : BitVec 3) (s : State) : Host.Outcome State Fault Refusal :=
  .next (commandStep .initEnc n (fun _ => initOp .enc) s)

/-- INIT_DEC (spec/41_session_commands.md R133, R134). -/
def execInitDec (n : BitVec 3) (s : State) : Host.Outcome State Fault Refusal :=
  .next (commandStep .initDec n (fun _ => initOp .dec) s)

/-- ABORT (spec/41_session_commands.md R135). -/
def execAbort (n : BitVec 3) (s : State) : Host.Outcome State Fault Refusal :=
  .next (commandStep .abort n (fun _ => streamError .ioError) s)

/-- CLEAR (spec/41_session_commands.md R136). -/
def execClear (n : BitVec 3) (s : State) : Host.Outcome State Fault Refusal :=
  .next (commandStep .clear n (fun _ => returnToIdle) s)

/-- RESERVED_OP: the write is refused; it is never pending (spec/30_encoding.md R86, spec/40_command_issue.md R105). -/
def execReservedOp (op : BitVec 4) (n : BitVec 3) (s : State) : Host.Outcome State Fault Refusal :=
  match commandOf op with
  | none => .next (issue op n s)
  | some _ => .refused .illFormed

end Sys2Proof.Machine
end

