-- ==== Sys2Proof/Machine/Stream.lean ====
section
/-! DEFINITION. The meanings of the stream commands (spec/43_stream_commands.md). -/

namespace Sys2Proof.Machine

open Sys2Proof

/-- PUSH (spec/43_stream_commands.md R170 to R175). -/
def execPush (n : BitVec 3) (s : State) : Host.Outcome State Fault Refusal :=
  .next (commandStep .push n (pushOp Config.cipher n) s)

/-- FINAL (spec/43_stream_commands.md R178 to R184). -/
def execFinal (n : BitVec 3) (s : State) : Host.Outcome State Fault Refusal :=
  .next (commandStep .final n (fun _ => finalOp Config.cipher) s)

/-- POP (spec/43_stream_commands.md R176). -/
def execPop (n : BitVec 3) (s : State) : Host.Outcome State Fault Refusal :=
  .next (commandStep .pop n (fun _ => fifoPop n.toNat) s)

end Sys2Proof.Machine
end

