-- ==== Sys2Proof/Machine/Dispatch.lean ====
section
/-! DEFINITION. exec: one arm per row of spec/opcode_table.json. -/

namespace Sys2Proof.Machine

open Sys2Proof

def exec (i : Instr) (s : State) : Host.Outcome State Fault Refusal :=
  match i with
  -- format CMD
  | .nop n _ => Sys2Proof.Machine.execNop n s
  | .initEnc n _ => Sys2Proof.Machine.execInitEnc n s
  | .initDec n _ => Sys2Proof.Machine.execInitDec n s
  | .push n _ => Sys2Proof.Machine.execPush n s
  | .final n _ => Sys2Proof.Machine.execFinal n s
  | .pop n _ => Sys2Proof.Machine.execPop n s
  | .abort n _ => Sys2Proof.Machine.execAbort n s
  | .clear n _ => Sys2Proof.Machine.execClear n s
  | .reservedOp op n _ => Sys2Proof.Machine.execReservedOp op n s
  -- format BUS
  | .rd off => Sys2Proof.Machine.execRd off s
  | .wrCtrl v => Sys2Proof.Machine.execWrCtrl v s
  | .wrStatus v => Sys2Proof.Machine.execWrStatus v s
  | .cmd w => Sys2Proof.Machine.execCmd w s
  | .wrIv0 v => Sys2Proof.Machine.execWrIv0 v s
  | .wrIv1 v => Sys2Proof.Machine.execWrIv1 v s
  | .wrIv2 v => Sys2Proof.Machine.execWrIv2 v s
  | .wrIv3 v => Sys2Proof.Machine.execWrIv3 v s
  | .wrDin v => Sys2Proof.Machine.execWrDin v s
  | .wrReadOnly off _ => Sys2Proof.Machine.execWrReadOnly off s
  | .wrReserved off _ => Sys2Proof.Machine.execWrReserved off s

end Sys2Proof.Machine
end

