-- ==== Sys2Proof/Machine/Fetch.lean ====
section
/-! DEFINITION. What the next step is: a host access, the sequencer's completion, a reset, or nothing
(spec/00_scope.md R15; spec/40_command_issue.md R108; spec/70_reset_and_hazards.md R240, R242, R248). -/

namespace Sys2Proof.Machine

open Sys2Proof

/-- The next step's work. -/
inductive Work where
  /-- run this instruction -/
  | instr (i : Instr)
  /-- the host made an access that is not admitted -/
  | notAdmitted (why : Reject)
  /-- the rst input -/
  | reset
  /-- nothing to do: CBCSEQ waits for the host -/
  | wait
  /-- a completion step without a pending command -/
  | stuck
deriving DecidableEq, Repr

/-- The command word of the pending command. -/
def pendWord (p : Pend) : Word := commandWord (opCode p.op) p.n 0

/-- A completion step runs the pending command (spec/40_command_issue.md R108). -/
def completionWork (s : State) : Work :=
  match s.pend with
  | some p => .instr (decodeCmd (pendWord p))
  | none => .stuck

/-- A host access runs the bus operation it decodes to (spec/30_encoding.md R89). -/
def hostWork (a : Access) : Work :=
  match decodeBus a with
  | .ok i => .instr i
  | .error r => .notAdmitted r

/-- The orders that remain. -/
def withInputs (rest : List Event) (s : State) : State := { s with inputs := rest }

/-- The next step's work, and the state it is done in: the outside world's next order is taken from `inputs`. A completion
step is enabled exactly when BUSY = 1; when nothing more is ordered and a command is pending, it completes
(spec/70_reset_and_hazards.md R248). -/
def fetch (s : State) : Work × State :=
  match s.inputs with
  | [] => (if s.busy then completionWork s else .wait, s)
  | .host a :: rest => (hostWork a, withInputs rest s)
  | .completion :: rest => (if s.busy then completionWork s else .wait, withInputs rest s)
  | .reset :: rest => (.reset, withInputs rest s)

/-- The rst input: every field of the record of spec/10_state.md R45 at its reset value, whatever is pending; what is
outside CBCSEQ stays (spec/70_reset_and_hazards.md R240). -/
def resetStep (s : State) : State := { State.reset with rdata := s.rdata, inputs := s.inputs }

/-- The host's write of a command word as the next access. -/
def withCommandWrite (s : State) (w : Word) : State :=
  { s with inputs := .host (busWriteAt 0x0C w) :: s.inputs }

end Sys2Proof.Machine
end

