-- ==== Sys2Proof/Machine/Step.lean ====
section
/-! DEFINITION. One step of the machine (spec/00_scope.md R15), and where the host's next instruction stands. -/

namespace Sys2Proof.Machine

open Sys2Proof

/-- One step: a bus operation of the host, a completion of the sequencer, a reset, or waiting. -/
def step (s : State) : Host.Outcome State Fault Refusal :=
  match fetch s with
  | (.instr i, t) => exec i t
  | (.notAdmitted why, _) => .refused (.notAdmitted why)
  | (.reset, t) => .next (resetStep t)
  | (.wait, t) => .next t
  | (.stuck, _) => .fault .completionWithoutPend

/-- The command word w as the host's next access: a 32-bit write at offset 0x0C, which the next step takes
(notes/assumptions/2.md). -/
def State.withFetchWord (s : State) (nbits w : Nat) : State :=
  withCommandWrite s (BitVec.ofNat 32 (w % 2 ^ nbits))

end Sys2Proof.Machine
end

