-- ==== Sys2Proof/Machine/HostSeq.lean ====
section
/-! DEFINITION. The host's side of the window: a command with its `wait`, the pseudo-instructions push and pop, and whole
operations made of them (spec/30_encoding.md R91; spec/70_reset_and_hazards.md R244, R245). They are built from the
machine's own operations, for any CIPHER; the machine does not call them. -/

namespace Sys2Proof.Machine

open Sys2Proof

/-- Is a write of this command accepted in this state (spec/40_command_issue.md R105)? -/
def accepts (op : Command) (n : BitVec 3) (s : State) : Bool := !s.busy && commandFault op n s == .none

/-- `cmd OP, N; wait`: the write of CMD and, if it is accepted, the completion (spec/30_encoding.md R91). -/
def commandWait (c : Cipher) (op : Command) (n : BitVec 3) (s : State) : State :=
  let t := issue (opCode op) n s
  match accepts op n s, t.pend with
  | true, some p => complete c p t
  | _, _ => t

/-- One turn of a host's loop: `push` of N bytes through DIN, or `pop N`. -/
inductive Act where
  | push (n : BitVec 3) (d : Word)
  | pop (n : BitVec 3)
deriving DecidableEq, Repr

/-- The bytes an act hands over to CBCSEQ. -/
def handedOver : Act → List Byte
  | .push n d => dataBytes n d
  | .pop _ => []

/-- The bytes a host takes from DOUT after an act (spec/43_stream_commands.md R177). -/
def takenFrom (a : Act) (s : State) : List Byte :=
  match a with
  | .push _ _ => []
  | .pop n => dataBytes n s.dout

/-- The bytes a list of acts hands over, in order. -/
def inputOf (acts : List Act) : List Byte := acts.flatMap handedOver

/-- An act, or none where its command is refused. -/
def runAct (c : Cipher) (a : Act) (s : State) : Option State :=
  match a with
  | .push n d => if accepts .push n (writeDin d s) then some (commandWait c .push n (writeDin d s)) else none
  | .pop n => if accepts .pop n s then some (commandWait c .pop n s) else none

/-- The acts in turn: the last state and the bytes popped, or none where a command is refused. -/
def runActs (c : Cipher) : List Act → State → Option (State × List Byte)
  | [], s => some (s, [])
  | a :: rest, s =>
    match runAct c a s with
    | none => none
    | some t =>
      match runActs c rest t with
      | none => none
      | some (u, out) => some (u, takenFrom a t ++ out)

/-- A whole operation in which no command is refused: the INIT, the host's acts, FINAL, and the pops after it. It gives
the last state and the bytes popped. -/
def runOperation (c : Cipher) (init : Command) (acts : List Act) (pops : List (BitVec 3)) (s : State) :
    Option (State × List Byte) :=
  if accepts init 0 s then
    match runActs c acts (commandWait c init 0 s) with
    | none => none
    | some (t, out) =>
      if accepts .final 0 t then
        match runActs c (pops.map .pop) (commandWait c .final 0 t) with
        | none => none
        | some (u, out') => some (u, out ++ out')
      else none
  else none

end Sys2Proof.Machine
end

