-- ==== Sys2Proof/Machine/Reference.lean ====
section
/-! DEFINITION. What an operation computes, on whole byte strings and without a machine: padding, CBC encryption and CBC
decryption (spec/42_cbc_datapath.md R154, R155). The machine does not call these; claims compare it with them. -/

namespace Sys2Proof.Machine

open Sys2Proof

/-- A byte string with its PKCS#7 padding: k = 16 - (L mod 16) bytes of the value k (spec/42_cbc_datapath.md R155, R157). -/
def padBytes (p : List Byte) : List Byte :=
  p ++ List.replicate (16 - p.length % 16) (BitVec.ofNat 8 (16 - p.length % 16))

/-- The block of a byte string's first 16 bytes. -/
def blockOfBytes (l : List Byte) : Block := Vector.ofFn fun i : Fin 16 => l.getD i.val 0

/-- The first m blocks of a byte string. -/
def takeBlocks : Nat → List Byte → List Block
  | 0, _ => []
  | m + 1, l => blockOfBytes l :: takeBlocks m (l.drop 16)

/-- The whole blocks of a byte string (spec/20_memory.md R60). -/
def blocksOf (l : List Byte) : List Block := takeBlocks (l.length / 16) l

/-- The bytes of a list of blocks. -/
def bytesOf (bs : List Block) : List Byte := bs.flatMap Vector.toList

/-- The block XOR of the stream equations, byte by byte (spec/42_cbc_datapath.md R150). It is written out here, so that a
claim that compares the machine with this file says what the machine's XOR16 is. -/
def combine (a b : Block) : Block := Vector.ofFn fun i : Fin 16 => a[i] ^^^ b[i]

/-- C_i = E(P_i ⊕ C_(i-1)), from C_0 (spec/42_cbc_datapath.md R154). -/
def cbcEncrypt (c : Cipher) : Block → List Block → List Block
  | _, [] => []
  | prev, p :: ps => c.enc (combine p prev) :: cbcEncrypt c (c.enc (combine p prev)) ps

/-- P'_i = D(C_i) ⊕ C_(i-1), from C_0 (spec/42_cbc_datapath.md R154). -/
def cbcDecrypt (c : Cipher) : Block → List Block → List Block
  | _, [] => []
  | prev, x :: xs => combine (c.dec x) prev :: cbcDecrypt c x xs

end Sys2Proof.Machine
end

