-- ==== Sys2Proof/Safety.lean ====
section
/-! DEFINITION. The invariant of spec/10_state.md R49, in the terms the claims use. -/

namespace Sys2Proof.Machine

open Sys2Proof

/-- The invariants of spec/10_state.md R49 at a step boundary, clauses (a) to (i), and with them what R105 ("it still
holds at completion"), R136 (IVW) and D41 (CERR) say. Clauses (h) and (i) are written so that they also hold after a
counter has wrapped (notes/assumptions/16.md). -/
structure StepInv (s : State) : Prop where
  /-- (a) -/
  idle : s.state = .idle → s.ofifo = [] ∧ s.cnt = 0 ∧ s.hbv = false
  /-- (b) -/
  error : s.state = .error → s.ofifo = [] ∧ s.cnt = 0 ∧ s.hbv = false ∧ s.err ≠ .none
  /-- (c) -/
  noErr : s.state ≠ .error → s.err = .none
  /-- (d) -/
  enc : s.state = .enc → s.hbv = false
  /-- (e) -/
  done : s.state = .done → s.cnt = 0 ∧ s.hbv = false
  /-- (f) -/
  pending : s.busy = s.pend.isSome
  /-- (g); CNT ≤ 15 is in its type -/
  room : s.ofifo.length ≤ Config.ofifoDepth
  /-- (h) -/
  encCount : s.state = .enc →
    s.cnt.val = s.inBytes.toNat % 16 ∧ s.outBytes.toNat = 16 * (s.inBytes.toNat / 16)
  /-- (i) -/
  decCount : s.state = .dec →
    s.cnt.val = s.inBytes.toNat % 16 ∧
    (s.hbv = false → s.inBytes.toNat < 16 ∧ s.outBytes = 0) ∧
    (s.hbv = true → s.outBytes.toNat = (16 * (s.inBytes.toNat / 16) + (2 ^ 64 - 16)) % 2 ^ 64)
  /-- R105: the checks a pending command passed still hold -/
  stillLegal : ∀ p, s.pend = some p → commandFault p.op p.n s = .none
  /-- R28, R136: IVW is 0 outside IDLE -/
  ivw : s.state ≠ .idle → s.ivw = 0
  /-- D41: CERR is nonzero exactly when a refusal is unacknowledged -/
  cerr : s.cerrP = true ↔ s.cerr ≠ .none

/-- The machine can be given an INIT: IDLE, nothing pending, all four IV words written
(spec/40_command_issue.md R111, R112). -/
def ReadyForInit (s : State) : Prop :=
  s.state = .idle ∧ s.busy = false ∧ s.pend = none ∧ s.ivw = 0b1111#4

/-- A run that makes only admitted accesses (spec/20_memory.md R63). -/
def Admitted (es : List Event) : Prop := ∀ a, Event.host a ∈ es → admission a = none

end Sys2Proof.Machine
end

