-- ==== Sys2Proof/Certificates/Slice0/Obligations.lean ====
section
/-! DEFINITION. The statements for the provers, from the numbered rules of spec/, and the few terms they are written in.
A docstring names the rule a statement formalises, or says that the statement is about a choice of the model. Where a
statement speaks of `step`, the order of the steps comes from the model's own field `inputs` (notes/assumptions/2.md); where
it speaks of exec of a CMD row, it uses the model's reading of a two-step command (notes/assumptions/4.md). -/

namespace Sys2Proof.Claims

open Sys2Proof Sys2Proof.Machine

/-- The command c with the count n and the data d is the accepted one, awaiting its completion
(spec/10_state.md R48). -/
def Awaits (s : State) (c : Command) (n : BitVec 3) (d : Word) : Prop :=
  s.busy = true ∧ s.pend = some ⟨c, n, d⟩

/-- Byte j of the data word d: bits [8j+7:8j] (spec/30_encoding.md R84). -/
def lane (d : Word) (j : Nat) : Byte := d.extractLsb' (8 * j) 8

/-- The bytes s.buf[0..CNT-1] followed by bytes of d make up the block B (spec/43_stream_commands.md R171, R172). -/
def Gathers (s : State) (d : Word) (B : Block) : Prop :=
  ∀ k : Fin 16, B[k] = if k < s.cnt then s.buf[k] else lane d (k.val - s.cnt.val)

/-- The padding of hb is valid: every one of its last k bytes is k, 1 ≤ k ≤ 16 (spec/42_cbc_datapath.md R158). -/
def PadValid (hb : Block) : Prop :=
  1 ≤ hb[15].toNat ∧ hb[15].toNat ≤ 16 ∧ ∀ i : Fin 16, 16 - hb[15].toNat ≤ i.val → hb[i] = hb[15]

/-- The conditions under which a command is accepted while BUSY = 0, command by command: the "Accepted when" of
spec/41_session_commands.md R131 to R136 and spec/43_stream_commands.md R170, R176, R178. -/
def AcceptedWhen (c : Command) (n : BitVec 3) (s : State) : Prop :=
  match c with
  | .nop => True
  | .initEnc | .initDec => s.state = .idle ∧ s.ivw = 0b1111#4
  | .push => 1 ≤ n.toNat ∧ n.toNat ≤ 4 ∧ (s.state = .enc ∨ s.state = .dec) ∧
      (16 ≤ s.cnt.val + n.toNat → s.ofifo.length + (if s.state = .enc ∨ s.hbv = true then 16 else 0) ≤ 32)
  | .final => (s.state = .enc ∨ s.state = .dec) ∧ s.ofifo.length ≤ 16
  | .pop => 1 ≤ n.toNat ∧ n.toNat ≤ 4 ∧ n.toNat ≤ s.ofifo.length
  | .abort => s.state = .enc ∨ s.state = .dec ∨ s.state = .done
  | .clear => s.state = .idle ∨ s.state = .error ∨ (s.state = .done ∧ s.ofifo = [])

/-- The checks of spec/40_command_issue.md R105 that are met in vain, in their order, each with its code: an opcode op,
a count n. -/
def failedChecks (op : BitVec 4) (n : BitVec 3) (s : State) : List (Prop × CmdErr) :=
  [ (s.busy = true, .busy),
    (8 ≤ op.toNat, .reservedOp),
    ((op = 3 ∨ op = 5) ∧ ¬(1 ≤ n.toNat ∧ n.toNat ≤ 4), .badCount),
    ((op = 1 ∨ op = 2) ∧ s.state ≠ .idle ∨
      (op = 3 ∨ op = 4) ∧ s.state ≠ .enc ∧ s.state ≠ .dec ∨
      op = 6 ∧ (s.state = .idle ∨ s.state = .error) ∨
      op = 7 ∧ (s.state = .enc ∨ s.state = .dec), .badState),
    ((op = 1 ∨ op = 2) ∧ s.ivw ≠ 0b1111#4, .noIv),
    (op = 3 ∧ 16 ≤ s.cnt.val + n.toNat ∧
        32 < s.ofifo.length + (if s.state = .enc ∨ s.hbv = true then 16 else 0) ∨
      op = 4 ∧ 16 < s.ofifo.length, .outFull),
    (op = 5 ∧ s.ofifo.length < n.toNat, .outEmpty),
    (op = 7 ∧ s.state = .done ∧ s.ofifo ≠ [], .notDrained) ]

/-- `raise CmdError(code)` written out (spec/60_exceptions.md R200). -/
def Refused (s : State) (e : CmdErr) : State := { s with cerr := e, cerrP := true }

/-- The end of a completion step written out: PEND, BUSY, CMPL_P (spec/40_command_issue.md R108). -/
def Completed (s : State) : State := { s with pend := none, busy := false, cmplP := true }

/-- `raise StreamError(code)` written out (spec/60_exceptions.md R203). -/
def Ended (s : State) (e : StreamErr) : State :=
  { s with
    state := .error, err := e, ofifo := [], buf := Vector.replicate 16 0, cnt := 0,
    hb := Vector.replicate 16 0, hbv := false, errP := true }

/-- The next ordered step is a reset. -/
def ResetIsNext (s : State) : Prop := ∃ rest, s.inputs = .reset :: rest

/-- The next ordered step is the host access a. -/
def HostIsNext (s : State) (a : Access) : Prop := ∃ rest, s.inputs = .host a :: rest

/-- The next step is a completion: BUSY = 1, and neither the host nor rst goes first. -/
def CompletionIsNext (s : State) : Prop :=
  s.busy = true ∧ (s.inputs = [] ∨ ∃ rest, s.inputs = .completion :: rest)

end Sys2Proof.Claims

section
open Sys2Proof Sys2Proof.Machine Sys2Proof.Claims

/-! ## Encoding -/

/-- Decode inverts encode on every well-formed instruction of both formats (R80, R81, R82, R86, R89). -/
def Obligations.DecodeInvertsEncode : Prop :=
  ∀ i : Instr, i.wellFormed = true → decode i.format (encode i) = .ok i

/-- Every 32-bit command word is a row of format CMD, and no bit of it is lost (R81, R82, R88). -/
def Obligations.EveryCommandWordDecodesWithoutLoss : Prop :=
  ∀ w : Word, (decodeCmd w).wellFormed = true ∧ (decodeCmd w).format = .cmd ∧
    encode (decodeCmd w) = busWriteAt 0x0C w

/-- What the decoder answers is an instruction of the format it was asked for (R89, R63). -/
def Obligations.DecodedInstructionsAreWellFormed : Prop :=
  ∀ (f : Format) (a : Access) (i : Instr), decode f a = .ok i → i.wellFormed = true ∧ i.format = f

/-- Rows of the opcode table, each with its instruction: command words of format CMD (R82), and the whole map of format BUS
(R89): the row of a 32-bit write at every offset, and of a read at every admitted offset, whatever the data word. -/
def Obligations.TableWordsDecode : Prop :=
  decodeTableWord 8 0x00 = some (.nop 0 0) ∧ decodeTableWord 32 0x00000001 = some (.initEnc 0 0) ∧
  decodeTableWord 8 0x02 = some (.initDec 0 0) ∧ decodeTableWord 32 0x00000033 = some (.push 3 0) ∧
  decodeTableWord 32 0x00000004 = some (.final 0 0) ∧ decodeTableWord 8 0x45 = some (.pop 4 0) ∧
  decodeTableWord 8 0x06 = some (.abort 0 0) ∧ decodeTableWord 32 0x00000007 = some (.clear 0 0) ∧
  decodeTableWord 8 0x0A = some (.reservedOp 10 0 0) ∧
  (∀ v : Word,
    decodeBus ⟨.write, 32, 0x04, v⟩ = .ok (.wrCtrl v) ∧ decodeBus ⟨.write, 32, 0x08, v⟩ = .ok (.wrStatus v) ∧
    decodeBus ⟨.write, 32, 0x0C, v⟩ = .ok (.cmd v) ∧ decodeBus ⟨.write, 32, 0x10, v⟩ = .ok (.wrIv0 v) ∧
    decodeBus ⟨.write, 32, 0x14, v⟩ = .ok (.wrIv1 v) ∧ decodeBus ⟨.write, 32, 0x18, v⟩ = .ok (.wrIv2 v) ∧
    decodeBus ⟨.write, 32, 0x1C, v⟩ = .ok (.wrIv3 v) ∧ decodeBus ⟨.write, 32, 0x30, v⟩ = .ok (.wrDin v)) ∧
  (∀ (v : Word) (off : Nat),
    off ∈ [0x00, 0x20, 0x24, 0x28, 0x2C, 0x34, 0x38, 0x3C, 0x40, 0x44, 0x48, 0x4C] →
    decodeBus ⟨.write, 32, off, v⟩ = .ok (.wrReadOnly (BitVec.ofNat 7 off) v)) ∧
  (∀ (v : Word) (off : Nat), 0x50 ≤ off → off ≤ 0x7C → off % 4 = 0 →
    decodeBus ⟨.write, 32, off, v⟩ = .ok (.wrReserved (BitVec.ofNat 7 off) v)) ∧
  (∀ (v : Word) (off : Nat), off ≤ 0x7C → off % 4 = 0 →
    decodeBus ⟨.read, 32, off, v⟩ = .ok (.rd (BitVec.ofNat 7 off)))

/-- R63: the model refuses exactly the host accesses that are not admitted. -/
def Obligations.OnlyAdmittedAccessesAreTaken : Prop :=
  ∀ (s : State) (a : Access), HostIsNext s a →
    ((∃ why, step s = .refused (.notAdmitted why)) ↔ ¬(a.width = 32 ∧ a.off < 128 ∧ a.off % 4 = 0))

/-- R87: CMD[31:7] change nothing, neither in the write of CMD nor in the row the word decodes to. -/
def Obligations.ReservedCommandBitsChangeNothing : Prop :=
  ∀ (w : Word) (s : State),
    exec (.cmd w) s = exec (.cmd (w &&& 0x7F#32)) s ∧
    exec (decodeCmd w) s = exec (decodeCmd (w &&& 0x7F#32)) s

/-- R83: N is not read by a command other than PUSH and POP; for those two it is legal in 1..4 only. -/
def Obligations.CountIsReadByPushAndPopOnly : Prop :=
  (∀ (c : Cipher) (op : Command) (n m : BitVec 3) (s : State), op ≠ .push → op ≠ .pop →
    commandWait c op n s = commandWait c op m s) ∧
  (∀ (w : Word) (s : State), s.busy = false → (cmdOp w = 3 ∨ cmdOp w = 5) → (cmdN w = 0 ∨ 5 ≤ (cmdN w).toNat) →
    exec (.cmd w) s = .next (Refused s .badCount))

/-! ## Reads -/

/-- A read at an admitted offset completes: the host gets the register's word, and no register changes
(R64, R100; `rdata` is the model's own field, notes/assumptions/3.md). -/
def Obligations.ReadHasNoSideEffect : Prop :=
  ∀ (off : BitVec 7) (s : State), off.toNat % 4 = 0 →
    ∃ t, exec (.rd off) s = .next t ∧ t.rdata = some (busRead s off.toNat) ∧ { t with rdata := s.rdata } = s

/-- The STATUS word shows its fields at their bits, with IRQ computed from the pending bits and their enables
(R22, R25, R30); the codes of ERR and CERR are those of R204 and R201. -/
def Obligations.StatusWordShowsItsFields : Prop :=
  ∀ s : State, let w := busRead s 0x08
    (w.extractLsb' 0 3).toNat =
      (match s.state with | .idle => 0 | .enc => 1 | .dec => 2 | .done => 3 | .error => 4) ∧
    w.getLsbD 3 = s.busy ∧
    (w.extractLsb' 4 4).toNat =
      (match s.err with | .none => 0 | .truncatedCiphertext => 1 | .badPadding => 2 | .ioError => 3) ∧
    (w.extractLsb' 8 4).toNat =
      (match s.cerr with
        | .none => 0 | .busy => 1 | .reservedOp => 2 | .badCount => 3 | .badState => 4 | .noIv => 5 | .outFull => 6
        | .outEmpty => 7 | .notDrained => 8 | .locked => 9) ∧
    w.extractLsb' 12 4 = s.ivw ∧
    w.getLsbD 16 = s.cmplP ∧ w.getLsbD 17 = s.doneP ∧ w.getLsbD 18 = s.errP ∧ w.getLsbD 19 = s.cerrP ∧
    (w.getLsbD 20 = true ↔
      (s.cmplP = true ∧ s.ctrl.getLsbD 0 = true) ∨ (s.doneP = true ∧ s.ctrl.getLsbD 1 = true) ∨
      (s.errP = true ∧ s.ctrl.getLsbD 2 = true) ∨ (s.cerrP = true ∧ s.ctrl.getLsbD 3 = true)) ∧
    w.extractLsb' 21 11 = 0

/-- R37: the LEVEL word shows OCOUNT, CNT and HBV at their bits, and a write to it is ignored. OCOUNT is the length of the
FIFO, which is at most 32 (R47, R49 (g)). -/
def Obligations.LevelWordShowsItsFields : Prop :=
  ∀ s : State, s.ofifo.length ≤ 32 → let w := busRead s 0x38
    (w.extractLsb' 0 6).toNat = s.ofifo.length ∧ w.extractLsb' 6 2 = 0 ∧
    (w.extractLsb' 8 4).toNat = s.cnt.val ∧ w.extractLsb' 12 4 = 0 ∧
    w.getLsbD 16 = s.hbv ∧ w.extractLsb' 17 15 = 0 ∧
    ∀ v, exec (.wrReadOnly 0x38 v) s = .next s

/-- R61: byte 4n+j of IV and of CHAIN is lane j of word n, as it is read. -/
def Obligations.BlockRegisterLanes : Prop :=
  ∀ (s : State) (n j : Fin 4),
    lane (busRead s (0x10 + 4 * n.val)) j.val = s.iv[4 * n.val + j.val] ∧
    lane (busRead s (0x20 + 4 * n.val)) j.val = s.chain[4 * n.val + j.val]

/-- The other registers of the map as they are read (R33, R34, R35, R36, R38 to R43). -/
def Obligations.OtherRegistersReadAsMapped : Prop :=
  ∀ s : State,
    busRead s 0x00 = 0x0CBC0001#32 ∧ (busRead s 0x04).toNat = s.ctrl.toNat ∧ busRead s 0x0C = 0 ∧
    busRead s 0x30 = s.din ∧ busRead s 0x34 = s.dout ∧ busRead s 0x3C = 0x00002010#32 ∧
    (busRead s 0x44 ++ busRead s 0x40 : BitVec 64) = s.inBytes ∧
    (busRead s 0x4C ++ busRead s 0x48 : BitVec 64) = s.outBytes ∧
    ∀ off, 0x50 ≤ off → busRead s off = 0

/-- R50: the reset record, and every register as it is read right after reset. -/
def Obligations.ResetRecordAndItsReads : Prop :=
  State.reset.state = .idle ∧ State.reset.busy = false ∧ State.reset.pend = none ∧ State.reset.err = .none ∧
  State.reset.cerr = .none ∧ State.reset.ivw = 0 ∧ State.reset.cmplP = false ∧ State.reset.doneP = false ∧
  State.reset.errP = false ∧ State.reset.cerrP = false ∧ State.reset.ctrl = 0 ∧
  State.reset.iv = Vector.replicate 16 0 ∧ State.reset.chain = Vector.replicate 16 0 ∧
  State.reset.buf = Vector.replicate 16 0 ∧ State.reset.cnt = 0 ∧ State.reset.hb = Vector.replicate 16 0 ∧
  State.reset.hbv = false ∧ State.reset.ofifo = [] ∧ State.reset.din = 0 ∧ State.reset.dout = 0 ∧
  State.reset.inBytes = 0 ∧ State.reset.outBytes = 0 ∧
  ∀ off : Fin 32, busRead State.reset (4 * off.val) =
    if off = 0 then 0x0CBC0001#32 else if off = 15 then 0x00002010#32 else 0

/-! ## Writes -/

/-- R102, R104: CTRL keeps bits 3:0 of the word, DIN all of it, in every state and while BUSY; nothing else changes. -/
def Obligations.CtrlAndDinWritesStore : Prop :=
  ∀ (v : Word) (s : State),
    (∃ t, exec (.wrCtrl v) s = .next t ∧ t.ctrl.toNat = v.toNat % 16 ∧ { t with ctrl := s.ctrl } = s) ∧
    (∃ t, exec (.wrDin v) s = .next t ∧ t.din = v ∧ { t with din := s.din } = s)

/-- R103: a 1 in bits 16 to 19 clears that pending bit (bit 19 with CERR), a 0 leaves it; every other bit is ignored. -/
def Obligations.StatusWriteClearsPendingBits : Prop :=
  ∀ (v : Word) (s : State), ∃ t, exec (.wrStatus v) s = .next t ∧
    t.cmplP = (if v.getLsbD 16 then false else s.cmplP) ∧
    t.doneP = (if v.getLsbD 17 then false else s.doneP) ∧
    t.errP = (if v.getLsbD 18 then false else s.errP) ∧
    t.cerrP = (if v.getLsbD 19 then false else s.cerrP) ∧
    t.cerr = (if v.getLsbD 19 then .none else s.cerr) ∧
    { t with cmplP := s.cmplP, doneP := s.doneP, errP := s.errP, cerrP := s.cerrP, cerr := s.cerr } = s

/-- R109, R110: a write to a read-only register or to reserved space changes nothing and raises no error. -/
def Obligations.IgnoredWritesChangeNothing : Prop :=
  ∀ (off : BitVec 7) (v : Word) (s : State),
    (off.toNat ∈ [0x00, 0x20, 0x24, 0x28, 0x2C, 0x34, 0x38, 0x3C, 0x40, 0x44, 0x48, 0x4C] →
      exec (.wrReadOnly off v) s = .next s) ∧
    (0x50 ≤ off.toNat → off.toNat % 4 = 0 → exec (.wrReserved off v) s = .next s)

/-- R101: in IDLE with BUSY = 0 a write of IVn stores its four bytes and sets bit n of IVW; otherwise it is refused with
LOCKED; nothing else changes. -/
def Obligations.IvWriteStoresOrIsLocked : Prop :=
  ∀ (v : Word) (n : Fin 4) (i : Instr) (s : State),
    (n, i) ∈ [((0 : Fin 4), Instr.wrIv0 v), (1, .wrIv1 v), (2, .wrIv2 v), (3, .wrIv3 v)] →
    (s.busy = false ∧ s.state = .idle → ∃ t, exec i s = .next t ∧
      (∀ k : Fin 16, t.iv[k] = if k.val / 4 = n.val then lane v (k.val % 4) else s.iv[k]) ∧
      (∀ b : Fin 4, t.ivw.getLsbD b.val = (decide (b = n) || s.ivw.getLsbD b.val)) ∧
      { t with iv := s.iv, ivw := s.ivw } = s) ∧
    (s.busy = true ∨ s.state ≠ .idle → exec i s = .next (Refused s .locked))

/-! ## Commands: acceptance and refusal -/

/-- exec answers a next state on exactly the well-formed instructions: no instruction stops, whatever the state
(R88; the terms that are no instruction are the model's own, notes/assumptions/6.md). -/
def Obligations.ExecCompletesOnEveryInstruction : Prop :=
  ∀ (i : Instr) (s : State), (∃ t, exec i s = .next t) ↔ i.wellFormed = true

/-- R106: where BUSY = 0 and the command's own conditions hold, a write of CMD sets BUSY and latches OP, N and DIN into
PEND; nothing else changes at acceptance. -/
def Obligations.AcceptedCommandIsLatched : Prop :=
  ∀ (w : Word) (c : Command) (s : State), commandOf (cmdOp w) = some c → s.busy = false →
    AcceptedWhen c (cmdN w) s →
    exec (.cmd w) s = .next { s with busy := true, pend := some ⟨c, cmdN w, s.din⟩ }

/-- Where a check of R105 fails, the write of CMD is refused with the code of the first that fails, in the order of R105
and R212, and changes CERR and CERR_P only (R200). -/
def Obligations.FirstFailingCheckRefuses : Prop :=
  ∀ (w : Word) (s : State) (k : Fin 8),
    (∀ j : Fin 8, j < k → ¬((failedChecks (cmdOp w) (cmdN w) s)[j]).1) →
    ((failedChecks (cmdOp w) (cmdN w) s)[k]).1 →
    exec (.cmd w) s = .next (Refused s ((failedChecks (cmdOp w) (cmdN w) s)[k]).2)

/-- The model's reading of a CMD row (notes/assumptions/4.md): where its command is not the pending one, it is the host's
write of its word to CMD. -/
def Obligations.CommandRowNotPendingIsItsWrite : Prop :=
  ∀ (w : Word) (s : State), (¬∃ c d, Awaits s c (cmdN w) d ∧ opCode c = cmdOp w) →
    exec (decodeCmd w) s = exec (.cmd w) s

/-- A reserved opcode is refused and no other state changes: with RESERVED_OP (R86) where BUSY = 0, and with BUSY while a
command is pending, because check 1 comes first (R105, R212). -/
def Obligations.ReservedOpcodeIsRefused : Prop :=
  ∀ (op : BitVec 4) (n : BitVec 3) (r : BitVec 25) (s : State), 8 ≤ op.toNat →
    (s.busy = false → exec (.reservedOp op n r) s = .next (Refused s .reservedOp)) ∧
    (s.busy = true → exec (.reservedOp op n r) s = .next (Refused s .busy))

/-! ## Commands: completion -/

/-- R131: the completion of NOP has no effect but the end of the completion step. -/
def Obligations.NopCompletes : Prop :=
  ∀ (n : BitVec 3) (r : BitVec 25) (d : Word) (s : State), Awaits s .nop n d →
    exec (.nop n r) s = .next (Completed s)

/-- R134, with the new STATE of R132 and R133: CHAIN is loaded from IV, the per-operation state is cleared; IV, DOUT, DIN,
CTRL and the pending bits other than CMPL_P are not changed. -/
def Obligations.InitStartsAnOperation : Prop :=
  ∀ (n : BitVec 3) (r : BitVec 25) (d : Word) (s : State) (mode : OpState) (i : Instr) (c : Command),
    (i, c, mode) ∈ [(Instr.initEnc n r, Command.initEnc, OpState.enc), (.initDec n r, .initDec, .dec)] →
    Awaits s c n d →
    exec i s = .next (Completed { s with
      state := mode, chain := s.iv, buf := Vector.replicate 16 0, cnt := 0, hb := Vector.replicate 16 0,
      hbv := false, inBytes := 0, outBytes := 0, err := .none, ivw := 0 })

/-- A PUSH that completes no block stores its bytes after the CNT bytes held, counts them, and changes nothing else
(R170, R171, R175, R84). -/
def Obligations.PushWithinABlockGathers : Prop :=
  ∀ (n : BitVec 3) (r : BitVec 25) (d : Word) (s : State), Awaits s .push n d → s.cnt.val + n.toNat < 16 →
    ∃ t, exec (.push n r) s = .next t ∧ t.cnt.val = s.cnt.val + n.toNat ∧
      (∀ k : Fin 16, t.buf[k] =
        if s.cnt.val ≤ k.val ∧ k.val < s.cnt.val + n.toNat then lane d (k.val - s.cnt.val) else s.buf[k]) ∧
      t = Completed { s with buf := t.buf, cnt := t.cnt, inBytes := s.inBytes + BitVec.ofNat 64 n.toNat }

/-- A PUSH that completes a block in ENC outputs E(X), X the bytewise XOR of the block B and CHAIN, which becomes CHAIN, and
begins the next block with the bytes left over (R150, R151, R171, R172, R173). -/
def Obligations.PushCompletingABlockEncrypts : Prop :=
  ∀ (n : BitVec 3) (r : BitVec 25) (d : Word) (s : State) (B : Block), Awaits s .push n d → n.toNat ≤ 4 →
    s.state = .enc → 16 ≤ s.cnt.val + n.toNat → Gathers s d B →
    ∃ (t : State) (X : Block), (∀ k : Fin 16, X[k] = B[k] ^^^ s.chain[k]) ∧
      exec (.push n r) s = .next t ∧ t.cnt.val = s.cnt.val + n.toNat - 16 ∧
      (∀ k : Fin 16, k < t.cnt → t.buf[k] = lane d (16 - s.cnt.val + k.val)) ∧
      t = Completed { s with
        buf := t.buf, cnt := t.cnt,
        chain := Config.cipher.enc X,
        ofifo := s.ofifo ++ (Config.cipher.enc X).toList,
        outBytes := s.outBytes + 16,
        inBytes := s.inBytes + BitVec.ofNat 64 n.toNat }

/-- A PUSH that completes a block in DEC holds back the bytewise XOR of D(B) and CHAIN, makes B the new CHAIN, and outputs
the block held back before, if there was one (R150, R152, R171, R172, R174). -/
def Obligations.PushCompletingABlockDecrypts : Prop :=
  ∀ (n : BitVec 3) (r : BitVec 25) (d : Word) (s : State) (B : Block), Awaits s .push n d → n.toNat ≤ 4 →
    s.state = .dec → 16 ≤ s.cnt.val + n.toNat → Gathers s d B →
    ∃ t, exec (.push n r) s = .next t ∧ t.cnt.val = s.cnt.val + n.toNat - 16 ∧
      (∀ k : Fin 16, k < t.cnt → t.buf[k] = lane d (16 - s.cnt.val + k.val)) ∧
      (∀ k : Fin 16, t.hb[k] = (Config.cipher.dec B)[k] ^^^ s.chain[k]) ∧
      t = Completed { s with
        buf := t.buf, cnt := t.cnt,
        chain := B, hb := t.hb, hbv := true,
        ofifo := if s.hbv then s.ofifo ++ s.hb.toList else s.ofifo,
        outBytes := if s.hbv then s.outBytes + 16 else s.outBytes,
        inBytes := s.inBytes + BitVec.ofNat 64 n.toNat }

/-- FINAL in ENC fills the block with k = 16 - CNT bytes of the value k, encrypts its bytewise XOR with CHAIN and is DONE
(R179, R155, R150, R151). The stale bytes BUF holds afterwards are left free (I14, notes/assumptions/10.md). -/
def Obligations.FinalInEncPadsAndEncrypts : Prop :=
  ∀ (n : BitVec 3) (r : BitVec 25) (d : Word) (s : State) (B : Block), Awaits s .final n d → s.state = .enc →
    (∀ k : Fin 16, B[k] = if k < s.cnt then s.buf[k] else BitVec.ofNat 8 (16 - s.cnt.val)) →
    ∃ (t : State) (X : Block), (∀ k : Fin 16, X[k] = B[k] ^^^ s.chain[k]) ∧
      exec (.final n r) s = .next t ∧
      t = Completed { s with
        buf := t.buf, cnt := 0,
        chain := Config.cipher.enc X,
        ofifo := s.ofifo ++ (Config.cipher.enc X).toList,
        outBytes := s.outBytes + 16, state := .done, doneP := true }

/-- FINAL in DEC: TRUNCATED_CIPHERTEXT where CNT ≠ 0 comes first, then BAD_PADDING where no block was received or the
padding is not valid; otherwise the block held back is output without its padding, and the operation is DONE
(R180 to R184, R203). -/
def Obligations.FinalInDecChecksAndStrips : Prop :=
  ∀ (n : BitVec 3) (r : BitVec 25) (d : Word) (s : State), Awaits s .final n d → s.state = .dec →
    (s.cnt ≠ 0 → exec (.final n r) s = .next (Completed (Ended s .truncatedCiphertext))) ∧
    (s.cnt = 0 ∧ s.hbv = false → exec (.final n r) s = .next (Completed (Ended s .badPadding))) ∧
    (s.cnt = 0 ∧ s.hbv = true ∧ ¬PadValid s.hb →
      exec (.final n r) s = .next (Completed (Ended s .badPadding))) ∧
    (s.cnt = 0 ∧ s.hbv = true ∧ PadValid s.hb →
      exec (.final n r) s = .next (Completed { s with
        ofifo := s.ofifo ++ s.hb.toList.take (16 - s.hb[15].toNat),
        outBytes := s.outBytes + BitVec.ofNat 64 (16 - s.hb[15].toNat),
        hb := Vector.replicate 16 0, hbv := false, state := .done, doneP := true }))

/-- R176, R85: POP N takes the N oldest bytes off the FIFO and shows them in lanes 0 to N-1 of DOUT, the other lanes 0;
OUT_BYTES is not changed. -/
def Obligations.PopShowsTheOldestBytes : Prop :=
  ∀ (n : BitVec 3) (r : BitVec 25) (d : Word) (s : State), Awaits s .pop n d → 1 ≤ n.toNat → n.toNat ≤ 4 →
    n.toNat ≤ s.ofifo.length →
    ∃ t, exec (.pop n r) s = .next t ∧ s.ofifo = (List.range n.toNat).map (lane t.dout) ++ t.ofifo ∧
      (∀ j : Fin 4, n.toNat ≤ j.val → lane t.dout j.val = 0) ∧
      t = Completed { s with ofifo := t.ofifo, dout := t.dout }

/-- R135: ABORT ends the operation with IO_ERROR; CHAIN and the counters are kept. -/
def Obligations.AbortEndsInError : Prop :=
  ∀ (n : BitVec 3) (r : BitVec 25) (d : Word) (s : State), Awaits s .abort n d →
    exec (.abort n r) s = .next (Completed (Ended s .ioError))

/-- R136: CLEAR returns to IDLE and clears ERR, BUF, CNT, HB and HBV; everything else is kept. -/
def Obligations.ClearReturnsToIdle : Prop :=
  ∀ (n : BitVec 3) (r : BitVec 25) (d : Word) (s : State), Awaits s .clear n d →
    exec (.clear n r) s = .next (Completed { s with
      state := .idle, err := .none, buf := Vector.replicate 16 0, cnt := 0, hb := Vector.replicate 16 0,
      hbv := false })

/-! ## Steps -/

/-- A step runs the host's bus operation that is next: exec of the instruction it decodes to, with the access taken off
`inputs` and nothing else done (R15, R89; the order is notes/assumptions/2.md). -/
def Obligations.StepRunsTheHostsInstruction : Prop :=
  ∀ (s : State) (a : Access) (rest : List Event) (i : Instr), s.inputs = .host a :: rest → decodeBus a = .ok i →
    step s = exec i { s with inputs := rest }

/-- A completion step runs the pending command: exec of the row its OP and N decode to, which is Complete() of R108 with
the machine's CIPHER (the order and the row are the model's: notes/assumptions/2.md, 4.md). -/
def Obligations.StepCompletesThePendingCommand : Prop :=
  ∀ (s : State) (p : Pend), s.pend = some p → CompletionIsNext s →
    step s = exec (decodeCmd (commandWord (opCode p.op) p.n 0)) { s with inputs := s.inputs.tail } ∧
    step s = .next (complete Config.cipher p { s with inputs := s.inputs.tail })

/-- R240: a reset puts every field of the record at its reset value, whatever is pending; the orders to come stay
(and `rdata`, which is the host's: notes/assumptions/2.md, 3.md). -/
def Obligations.ResetStepRestoresTheRecord : Prop :=
  ∀ (s : State) (rest : List Event), s.inputs = .reset :: rest →
    step s = .next { State.reset with rdata := s.rdata, inputs := rest }

/-- R242: with no command pending and nothing ordered, CBCSEQ waits; a completion that is not enabled (R108) does
nothing (the model's own orders: notes/assumptions/2.md). -/
def Obligations.WithoutACommandNothingHappens : Prop :=
  ∀ s : State, s.busy = false → (s.inputs = [] ∨ ∃ rest, s.inputs = .completion :: rest) →
    step s = .next { s with inputs := s.inputs.tail }

/-- A write of CMD that is accepted and the completion step after it are, together, `commandWait` with the machine's
CIPHER: claims about `commandWait` are claims about steps (R91, R105, R108; the order is notes/assumptions/2.md). -/
def Obligations.TwoStepsAreACommandWithWait : Prop :=
  ∀ (s : State) (w : Word) (c : Command) (rest : List Event), commandOf (cmdOp w) = some c →
    s.inputs = .host (busWriteAt 0x0C w) :: .completion :: rest → accepts c (cmdN w) s = true →
    Sys2Proof.core.run 2 s = .next { commandWait Config.cipher c (cmdN w) s with inputs := rest }

/-! ## Invariants and whole-machine rules -/

/-- The reset state has the invariant of R49. -/
def Obligations.ResetHasTheInvariant : Prop := StepInv State.reset

/-- Every step keeps the invariant of R49, from every state that has it; (h) and (i) are restated past the wrap of the
counters (notes/assumptions/16.md). -/
def Obligations.EveryStepKeepsTheInvariant : Prop := ∀ s t : State, StepInv s → step s = .next t → StepInv t

/-- A run of admitted accesses never stops, however long, and keeps the invariant (R88, R108). -/
def Obligations.AdmittedRunsNeverStop : Prop :=
  ∀ (k : Nat) (s : State), StepInv s → Admitted s.inputs →
    ∃ t, Sys2Proof.core.run k s = .next t ∧ StepInv t ∧ Admitted t.inputs

/-- STATE changes only at the completions of R23's table, and at a reset. -/
def Obligations.StateChangesFollowTheTable : Prop :=
  ∀ s t : State, StepInv s → step s = .next t → t.state ≠ s.state →
    (ResetIsNext s ∧ t.state = .idle) ∨
    (CompletionIsNext s ∧ ∃ c n d, Awaits s c n d ∧ (c, s.state, t.state) ∈
      [(Command.initEnc, OpState.idle, OpState.enc), (.initDec, .idle, .dec), (.final, .enc, .done),
       (.final, .dec, .done), (.final, .dec, .error), (.abort, .enc, .error), (.abort, .dec, .error),
       (.abort, .done, .error), (.clear, .done, .idle), (.clear, .error, .idle)])

/-- While a command is pending, a host access changes nothing that the command's completion writes, and of the pending
bits it can only clear some (R69). -/
def Obligations.HostAccessesWhileBusyKeepTheOperation : Prop :=
  ∀ (s t : State) (a : Access), s.busy = true → HostIsNext s a → step s = .next t →
    { t with
      ctrl := s.ctrl, din := s.din, cerr := s.cerr, cerrP := s.cerrP, cmplP := s.cmplP, doneP := s.doneP,
      errP := s.errP, rdata := s.rdata, inputs := s.inputs } = s ∧
    (t.cmplP = true → s.cmplP = true) ∧ (t.doneP = true → s.doneP = true) ∧ (t.errP = true → s.errP = true)

/-- The pending bits are sticky: only a reset or the host's write of a 1 to the bit in STATUS clears one (R29). -/
def Obligations.PendingBitsAreSticky : Prop :=
  ∀ s t : State, step s = .next t → ¬ResetIsNext s →
    (∀ (b : Nat) (before after : Bool),
      (b, before, after) ∈ [(16, s.cmplP, t.cmplP), (17, s.doneP, t.doneP), (18, s.errP, t.errP),
        (19, s.cerrP, t.cerrP)] →
      before = true → after = false →
      ∃ a, HostIsNext s a ∧ a.dir = .write ∧ a.width = 32 ∧ a.off = 0x08 ∧ a.data.getLsbD b = true)

/-- Each pending bit is set by its one event only: a completion; a completion into DONE; a completion into ERROR; a
refusal, which is a host access (R29). -/
def Obligations.PendingBitsAreSetByTheirEvents : Prop :=
  ∀ s t : State, StepInv s → step s = .next t →
    (CompletionIsNext s → t.cmplP = true) ∧
    (s.cmplP = false → t.cmplP = true → CompletionIsNext s ∧ t.busy = false) ∧
    (CompletionIsNext s → s.state ≠ .done → t.state = .done → t.doneP = true) ∧
    (s.doneP = false → t.doneP = true → CompletionIsNext s ∧ s.state ≠ .done ∧ t.state = .done) ∧
    (CompletionIsNext s → s.state ≠ .error → t.state = .error → t.errP = true) ∧
    (s.errP = false → t.errP = true → CompletionIsNext s ∧ s.state ≠ .error ∧ t.state = .error) ∧
    (s.cerrP = false → t.cerrP = true → (∃ a, HostIsNext s a ∧ a.dir = .write) ∧ t.cerr ≠ .none)

/-- DOUT changes only at the completion of a POP and at a reset (R36). -/
def Obligations.OnlyPopAndResetChangeDout : Prop :=
  ∀ s t : State, step s = .next t → t.dout ≠ s.dout →
    ResetIsNext s ∨ (CompletionIsNext s ∧ ∃ n d, Awaits s .pop n d)

/-- The IV changes only at a reset and at a write of IV0 to IV3 in IDLE with BUSY = 0: never under a running operation
(R101). -/
def Obligations.IvIsLockedDuringAnOperation : Prop :=
  ∀ s t : State, step s = .next t → t.iv ≠ s.iv →
    ResetIsNext s ∨ (s.state = .idle ∧ s.busy = false ∧
      ∃ a, HostIsNext s a ∧ a.dir = .write ∧ a.off ∈ [0x10, 0x14, 0x18, 0x1C])

/-- Errors do not nest: a step that stays in ERROR keeps ERR (R215). -/
def Obligations.ErrorsDoNotNest : Prop :=
  ∀ s t : State, StepInv s → step s = .next t → s.state = .error → t.state = .error → t.err = s.err

/-- A pending command completes (or is discarded by a reset) after finitely many steps: at most one more than the steps
that are ordered (R248; that the completion comes once nothing more is ordered is the model's choice,
notes/assumptions/2.md). -/
def Obligations.PendingCommandCompletes : Prop :=
  ∀ s : State, StepInv s → s.busy = true → Admitted s.inputs →
    ∃ (k : Nat) (t : State), k ≤ s.inputs.length + 1 ∧ Sys2Proof.core.run k s = .next t ∧ t.busy = false

/-- No state of one operation reaches the next: after an INIT, two machines with the same IV agree in everything but DOUT,
DIN, CTRL, the pending bits and CERR (R134, R2). -/
def Obligations.OperationsDoNotShareState : Prop :=
  ∀ (s s' t t' : State) (c : Command) (n n' : BitVec 3) (d d' : Word) (r r' : BitVec 25) (i i' : Instr),
    (c, i, i') ∈ [(Command.initEnc, Instr.initEnc n r, Instr.initEnc n' r'), (.initDec, .initDec n r, .initDec n' r')] →
    StepInv s → StepInv s' → Awaits s c n d → Awaits s' c n' d' → s.iv = s'.iv →
    exec i s = .next t → exec i' s' = .next t' →
    { t' with
      dout := t.dout, din := t.din, ctrl := t.ctrl, cmplP := t.cmplP, doneP := t.doneP, errP := t.errP,
      cerrP := t.cerrP, cerr := t.cerr, rdata := t.rdata, inputs := t.inputs } = t

/-- ABORT then CLEAR leave the reset state in every field but CTRL, the pending bits, IV, DIN, DOUT, CHAIN, CERR and the
counters (R241; `rdata` and `inputs` are the model's own). -/
def Obligations.AbortThenClearResembleReset : Prop :=
  ∀ (c : Cipher) (s : State), StepInv s → s.busy = false → (s.state = .enc ∨ s.state = .dec ∨ s.state = .done) →
    ∃ t, t = commandWait c .clear 0 (commandWait c .abort 0 s) ∧
      { t with
        ctrl := 0, cmplP := false, doneP := false, errP := false, cerrP := false, iv := Vector.replicate 16 0,
        din := 0, dout := 0, chain := Vector.replicate 16 0, cerr := .none, inBytes := 0, outBytes := 0,
        rdata := none, inputs := [] } = State.reset

/-- Draining cannot deadlock: while OCOUNT > 16 a POP 4 is accepted and lowers OCOUNT by 4, and once OCOUNT ≤ 16 no PUSH or
FINAL that is otherwise legal is refused (R253). -/
def Obligations.DrainingCannotDeadlock : Prop :=
  ∀ (c : Cipher) (s : State), s.busy = false →
    (16 < s.ofifo.length → accepts .pop 4 s = true ∧
      (commandWait c .pop 4 s).ofifo.length + 4 = s.ofifo.length ∧ (commandWait c .pop 4 s).busy = false) ∧
    (s.ofifo.length ≤ 16 → s.state = .enc ∨ s.state = .dec → accepts .final 0 s = true ∧
      ∀ n : BitVec 3, 1 ≤ n.toNat → n.toNat ≤ 4 → accepts .push n s = true)

/-! ## The datapath and the operation as a whole -/

/-- R158: PadCheck tests 1 ≤ k ≤ 16 and every one of the last k bytes. -/
def Obligations.PadCheckTestsEveryByte : Prop := ∀ hb : Block, padOk hb = true ↔ PadValid hb

/-- What Pad adds, PadCheck accepts and Unpad takes off, exactly: R159's inference from R155 and R158. -/
def Obligations.UnpadUndoesPad : Prop :=
  ∀ (b : Block) (cnt : Fin 16), padOk (padBlock b cnt) = true ∧ padCount (padBlock b cnt) = 16 - cnt.val ∧
    unpad (padBlock b cnt) (padCount (padBlock b cnt)) = b.toList.take cnt.val

/-- R154 on the machine: where D(E(x)) = x, a decrypt operation that is handed the CBC encryption of any blocks under its IV,
the last of them padded, in any grouping, reaches DONE and outputs exactly those blocks without the padding. -/
def Obligations.CbcDecryptionInvertsEncryption : Prop :=
  ∀ (c : Cipher) (s t : State) (acts : List Act) (pops : List (BitVec 3)) (out : List Byte) (ps : List Block)
    (last : Block),
    c.Inverse → StepInv s → ReadyForInit s → PadValid last →
    inputOf acts = bytesOf (cbcEncrypt c s.iv (ps ++ [last])) →
    runOperation c .initDec acts pops s = some (t, out) → t.ofifo = [] →
    t.state = .done ∧ out = bytesOf ps ++ last.toList.take (16 - last[15].toNat)

/-- The grouping of the input into PUSHes never changes the state they leave (R172). -/
def Obligations.GroupingOfPushesIsImmaterial : Prop :=
  ∀ (c : Cipher) (s t u : State) (g h : List (BitVec 3 × Word)),
    inputOf (g.map fun x => .push x.1 x.2) = inputOf (h.map fun x => .push x.1 x.2) →
    runActs c (g.map fun x => .push x.1 x.2) s = some (t, []) →
    runActs c (h.map fun x => .push x.1 x.2) s = some (u, []) →
    { t with din := u.din } = u

/-- An encrypt operation, with its bytes handed over and popped in any grouping and any order, outputs the CBC encryption
of the padded plaintext under the IV (R150, R154, R155, R177, R179). -/
def Obligations.EncryptOperationComputesCbc : Prop :=
  ∀ (c : Cipher) (s t : State) (acts : List Act) (pops : List (BitVec 3)) (out : List Byte),
    StepInv s → ReadyForInit s → runOperation c .initEnc acts pops s = some (t, out) → t.ofifo = [] →
    t.state = .done ∧ out = bytesOf (cbcEncrypt c s.iv (blocksOf (padBytes (inputOf acts))))

/-- The length laws R157 and R185: the counters at DONE, below the wrap. The k of R185 is the pad count of the last block:
the last byte of the last block that CBC decryption recovers from the input. -/
def Obligations.LengthsAtDone : Prop :=
  ∀ (c : Cipher) (s t : State) (acts : List Act) (pops : List (BitVec 3)) (out : List Byte),
    StepInv s → ReadyForInit s → (inputOf acts).length < 2 ^ 64 - 16 →
    (runOperation c .initEnc acts pops s = some (t, out) →
      t.inBytes.toNat = (inputOf acts).length ∧ t.outBytes.toNat = 16 * ((inputOf acts).length / 16 + 1)) ∧
    (runOperation c .initDec acts pops s = some (t, out) → t.state = .done →
      t.inBytes.toNat = (inputOf acts).length ∧
      (∃ m, 1 ≤ m ∧ (inputOf acts).length = 16 * m) ∧
      ∃ (ps : List Block) (last : Block), cbcDecrypt c s.iv (blocksOf (inputOf acts)) = ps ++ [last] ∧
        1 ≤ last[15].toNat ∧ last[15].toNat ≤ 16 ∧
        t.outBytes.toNat + last[15].toNat = (inputOf acts).length)

/-- R186: a ciphertext whose length is no multiple of 16 ends in ERROR with TRUNCATED_CIPHERTEXT, whatever the bytes and
the grouping; nothing is left to pop. -/
def Obligations.TruncatedCiphertextEndsInError : Prop :=
  ∀ (c : Cipher) (s t : State) (acts : List Act) (pops : List (BitVec 3)) (out : List Byte),
    StepInv s → ReadyForInit s → runOperation c .initDec acts pops s = some (t, out) →
    (inputOf acts).length % 16 ≠ 0 →
    t.state = .error ∧ t.err = .truncatedCiphertext ∧ t.ofifo = [] ∧
    ∀ n : BitVec 3, exec (.cmd (commandWord 5 n 0)) t = .next (Refused t (if 1 ≤ n.toNat ∧ n.toNat ≤ 4 then .outEmpty else .badCount))

/-- R160, the round trip: where D(E(x)) = x, decrypting an encryption under the same IV, in any grouping, reaches DONE and
gives back the plaintext. -/
def Obligations.RoundTripRestoresThePlaintext : Prop :=
  ∀ (c : Cipher) (s s' t t' : State) (acts acts' : List Act) (pops pops' : List (BitVec 3)) (q out : List Byte),
    c.Inverse → StepInv s → StepInv s' → ReadyForInit s → ReadyForInit s' → s'.iv = s.iv →
    runOperation c .initEnc acts pops s = some (t, q) → t.ofifo = [] →
    inputOf acts' = q → runOperation c .initDec acts' pops' s' = some (t', out) → t'.ofifo = [] →
    t'.state = .done ∧ out = inputOf acts

/-- A decrypt operation, with its bytes handed over and popped in any grouping and any order, holds the CBC decryption of
its blocks under the IV to its end: with whole blocks of input it is DONE exactly where the last recovered block has a valid
padding, and in ERROR with BAD_PADDING otherwise; where it is DONE and drained, its output is the recovered blocks without
the last k bytes, k the last byte (R150, R154, R158, R159, R177, R180, R182, R183, R184, R206). -/
def Obligations.DecryptOperationComputesCbc : Prop :=
  ∀ (c : Cipher) (s t : State) (acts : List Act) (pops : List (BitVec 3)) (out : List Byte),
    StepInv s → ReadyForInit s → runOperation c .initDec acts pops s = some (t, out) →
    (t.state = .done → t.ofifo = [] →
      ∃ (ps : List Block) (last : Block), cbcDecrypt c s.iv (blocksOf (inputOf acts)) = ps ++ [last] ∧
        PadValid last ∧ out = bytesOf ps ++ last.toList.take (16 - last[15].toNat)) ∧
    ((inputOf acts).length % 16 = 0 →
      (t.state = .done ↔
        ∃ (ps : List Block) (last : Block),
          cbcDecrypt c s.iv (blocksOf (inputOf acts)) = ps ++ [last] ∧ PadValid last) ∧
      (t.state ≠ .done → t.state = .error ∧ t.err = .badPadding))

end
end

