-- ==== Sys2Proof/Laws/Decode.lean ====
section
/-! SUPPORT. What the decoder and the encoder do, once: the fields of a command word, the opcode map both ways, the
admitted accesses, and the row each access decodes to. -/

namespace Sys2Proof

/-- The OP field of an assembled command word. -/
@[simp] theorem cmdOp_commandWord (op : BitVec 4) (n : BitVec 3) (r : BitVec 25) :
    cmdOp (commandWord op n r) = op := by
  apply BitVec.eq_of_getLsbD_eq; intro i hi
  simp only [cmdOp, commandWord, BitVec.getLsbD_extractLsb', BitVec.getLsbD_append]
  simp [hi]

/-- The N field of an assembled command word. -/
@[simp] theorem cmdN_commandWord (op : BitVec 4) (n : BitVec 3) (r : BitVec 25) :
    cmdN (commandWord op n r) = n := by
  apply BitVec.eq_of_getLsbD_eq; intro i hi
  simp only [cmdN, commandWord, BitVec.getLsbD_extractLsb', BitVec.getLsbD_append]
  simp [hi]

/-- The RSVD field of an assembled command word. -/
@[simp] theorem cmdRsvd_commandWord (op : BitVec 4) (n : BitVec 3) (r : BitVec 25) :
    cmdRsvd (commandWord op n r) = r := by
  apply BitVec.eq_of_getLsbD_eq; intro i hi
  simp only [cmdRsvd, commandWord, BitVec.getLsbD_extractLsb', BitVec.getLsbD_append]
  have h1 : ¬ (7 + i < 4) := by omega
  have h2 : ¬ (7 + i - 4 < 3) := by omega
  have h3 : 7 + i - 4 - 3 = i := by omega
  simp [hi, h1, h2, h3]

/-- A command word is its three fields. -/
theorem commandWord_fields (w : Word) : commandWord (cmdOp w) (cmdN w) (cmdRsvd w) = w := by
  apply BitVec.eq_of_getLsbD_eq; intro i hi
  simp only [cmdOp, cmdN, cmdRsvd, commandWord, BitVec.getLsbD_extractLsb', BitVec.getLsbD_append]
  split_ifs with h1 h2
  · simp [h1]
  · simp [h2]; congr 1; omega
  · have h3 : i - 4 - 3 < 25 := by omega
    simp [h3]; congr 1; omega

@[simp] theorem commandOf_opCode (c : Command) : commandOf (opCode c) = some c := by cases c <;> rfl

/-- The opcode map is one to one. -/
theorem commandOf_eq_some {op : BitVec 4} {c : Command} : commandOf op = some c ↔ opCode c = op := by
  cases c <;> revert op <;> decide

/-- The reserved opcodes are 0x8 to 0xF. -/
theorem commandOf_eq_none {op : BitVec 4} : commandOf op = none ↔ 8 ≤ op.toNat := by
  revert op; decide

/-- The row of format CMD for a command. -/
theorem decodeCmd_command (c : Command) (n : BitVec 3) (r : BitVec 25) :
    decodeCmd (commandWord (opCode c) n r) =
      match c with
      | .nop => .nop n r
      | .initEnc => .initEnc n r
      | .initDec => .initDec n r
      | .push => .push n r
      | .final => .final n r
      | .pop => .pop n r
      | .abort => .abort n r
      | .clear => .clear n r := by
  cases c <;> simp [decodeCmd]

/-- The row of format CMD for a reserved opcode. -/
theorem decodeCmd_reserved {op : BitVec 4} (h : commandOf op = none) (n : BitVec 3) (r : BitVec 25) :
    decodeCmd (commandWord op n r) = .reservedOp op n r := by
  simp [decodeCmd, h]

/-- Which accesses are admitted. -/
theorem admission_eq_none {a : Access} : admission a = none ↔ a.width = 32 ∧ a.off < 128 ∧ a.off % 4 = 0 := by
  unfold admission; split_ifs <;> simp_all

/-- What a bus operation decodes to, in one line. -/
theorem decodeBus_eq_ok {a : Access} {i : Instr} :
    decodeBus a = .ok i ↔ admission a = none ∧
      i = match a.dir with
        | .read => .rd (BitVec.ofNat 7 a.off)
        | .write => decodeWrite a.off a.data := by
  unfold decodeBus
  cases h : admission a with
  | some r => simp
  | none => cases a.dir <;> simp [eq_comm]

/-- The rows of a write, in one line. -/
theorem decodeWrite_cases (off : Nat) (v : Word) :
    (off = 0x04 ∧ decodeWrite off v = .wrCtrl v) ∨ (off = 0x08 ∧ decodeWrite off v = .wrStatus v) ∨
    (off = 0x0C ∧ decodeWrite off v = .cmd v) ∨ (off = 0x10 ∧ decodeWrite off v = .wrIv0 v) ∨
    (off = 0x14 ∧ decodeWrite off v = .wrIv1 v) ∨ (off = 0x18 ∧ decodeWrite off v = .wrIv2 v) ∨
    (off = 0x1C ∧ decodeWrite off v = .wrIv3 v) ∨ (off = 0x30 ∧ decodeWrite off v = .wrDin v) ∨
    (off ∉ [0x04, 0x08, 0x0C, 0x10, 0x14, 0x18, 0x1C, 0x30] ∧
      decodeWrite off v =
        if 0x50 ≤ off then .wrReserved (BitVec.ofNat 7 off) v else .wrReadOnly (BitVec.ofNat 7 off) v) := by
  by_cases h : off ∈ [0x04, 0x08, 0x0C, 0x10, 0x14, 0x18, 0x1C, 0x30]
  · simp only [List.mem_cons, List.not_mem_nil, or_false] at h
    rcases h with h | h | h | h | h | h | h | h <;> subst h <;> simp [decodeWrite]
  · refine .inr (.inr (.inr (.inr (.inr (.inr (.inr (.inr ⟨h, ?_⟩)))))))
    simp only [List.mem_cons, List.not_mem_nil, or_false, not_or] at h
    unfold decodeWrite
    split <;> simp_all

/-- An access is rejected exactly where it is not admitted. -/
theorem decodeBus_eq_error {a : Access} {r : Reject} : decodeBus a = .error r ↔ admission a = some r := by
  unfold decodeBus
  cases h : admission a with
  | some r => simp
  | none => cases a.dir <;> simp

/-- A write of CMD decodes to the row `cmd`, whatever the word. -/
theorem decodeBus_commandWrite (w : Word) : decodeBus (busWriteAt 0x0C w) = .ok (.cmd w) :=
  decodeBus_eq_ok.2 ⟨admission_eq_none.2 ⟨rfl, show 12 < 128 by decide, show 12 % 4 = 0 by decide⟩, rfl⟩

end Sys2Proof
end

