-- ==== Sys2Proof/Laws/State.lean ====
section
/-! SUPPORT. One lemma per field and per named update of State, each true by rfl, so that no later proof unfolds a record
update. -/

namespace Sys2Proof.Machine

open Sys2Proof

/-! ## cmdError -/

section
variable (e : CmdErr) (s : State)

@[simp] theorem cmdError_state : (cmdError e s).state = s.state := rfl
@[simp] theorem cmdError_busy : (cmdError e s).busy = s.busy := rfl
@[simp] theorem cmdError_pend : (cmdError e s).pend = s.pend := rfl
@[simp] theorem cmdError_err : (cmdError e s).err = s.err := rfl
@[simp] theorem cmdError_cerr : (cmdError e s).cerr = e := rfl
@[simp] theorem cmdError_ivw : (cmdError e s).ivw = s.ivw := rfl
@[simp] theorem cmdError_cmplP : (cmdError e s).cmplP = s.cmplP := rfl
@[simp] theorem cmdError_doneP : (cmdError e s).doneP = s.doneP := rfl
@[simp] theorem cmdError_errP : (cmdError e s).errP = s.errP := rfl
@[simp] theorem cmdError_cerrP : (cmdError e s).cerrP = true := rfl
@[simp] theorem cmdError_ctrl : (cmdError e s).ctrl = s.ctrl := rfl
@[simp] theorem cmdError_iv : (cmdError e s).iv = s.iv := rfl
@[simp] theorem cmdError_chain : (cmdError e s).chain = s.chain := rfl
@[simp] theorem cmdError_buf : (cmdError e s).buf = s.buf := rfl
@[simp] theorem cmdError_cnt : (cmdError e s).cnt = s.cnt := rfl
@[simp] theorem cmdError_hb : (cmdError e s).hb = s.hb := rfl
@[simp] theorem cmdError_hbv : (cmdError e s).hbv = s.hbv := rfl
@[simp] theorem cmdError_ofifo : (cmdError e s).ofifo = s.ofifo := rfl
@[simp] theorem cmdError_din : (cmdError e s).din = s.din := rfl
@[simp] theorem cmdError_dout : (cmdError e s).dout = s.dout := rfl
@[simp] theorem cmdError_inBytes : (cmdError e s).inBytes = s.inBytes := rfl
@[simp] theorem cmdError_outBytes : (cmdError e s).outBytes = s.outBytes := rfl
@[simp] theorem cmdError_rdata : (cmdError e s).rdata = s.rdata := rfl
@[simp] theorem cmdError_inputs : (cmdError e s).inputs = s.inputs := rfl

end

/-! ## streamError -/

section
variable (e : StreamErr) (s : State)

@[simp] theorem streamError_state : (streamError e s).state = .error := rfl
@[simp] theorem streamError_busy : (streamError e s).busy = s.busy := rfl
@[simp] theorem streamError_pend : (streamError e s).pend = s.pend := rfl
@[simp] theorem streamError_err : (streamError e s).err = e := rfl
@[simp] theorem streamError_cerr : (streamError e s).cerr = s.cerr := rfl
@[simp] theorem streamError_ivw : (streamError e s).ivw = s.ivw := rfl
@[simp] theorem streamError_cmplP : (streamError e s).cmplP = s.cmplP := rfl
@[simp] theorem streamError_doneP : (streamError e s).doneP = s.doneP := rfl
@[simp] theorem streamError_errP : (streamError e s).errP = true := rfl
@[simp] theorem streamError_cerrP : (streamError e s).cerrP = s.cerrP := rfl
@[simp] theorem streamError_ctrl : (streamError e s).ctrl = s.ctrl := rfl
@[simp] theorem streamError_iv : (streamError e s).iv = s.iv := rfl
@[simp] theorem streamError_chain : (streamError e s).chain = s.chain := rfl
@[simp] theorem streamError_buf : (streamError e s).buf = zeroBlock := rfl
@[simp] theorem streamError_cnt : (streamError e s).cnt = 0 := rfl
@[simp] theorem streamError_hb : (streamError e s).hb = zeroBlock := rfl
@[simp] theorem streamError_hbv : (streamError e s).hbv = false := rfl
@[simp] theorem streamError_ofifo : (streamError e s).ofifo = [] := rfl
@[simp] theorem streamError_din : (streamError e s).din = s.din := rfl
@[simp] theorem streamError_dout : (streamError e s).dout = s.dout := rfl
@[simp] theorem streamError_inBytes : (streamError e s).inBytes = s.inBytes := rfl
@[simp] theorem streamError_outBytes : (streamError e s).outBytes = s.outBytes := rfl
@[simp] theorem streamError_rdata : (streamError e s).rdata = s.rdata := rfl
@[simp] theorem streamError_inputs : (streamError e s).inputs = s.inputs := rfl

end

/-! ## returnToIdle -/

section
variable (s : State)

@[simp] theorem returnToIdle_state : (returnToIdle s).state = .idle := rfl
@[simp] theorem returnToIdle_busy : (returnToIdle s).busy = s.busy := rfl
@[simp] theorem returnToIdle_pend : (returnToIdle s).pend = s.pend := rfl
@[simp] theorem returnToIdle_err : (returnToIdle s).err = .none := rfl
@[simp] theorem returnToIdle_cerr : (returnToIdle s).cerr = s.cerr := rfl
@[simp] theorem returnToIdle_ivw : (returnToIdle s).ivw = s.ivw := rfl
@[simp] theorem returnToIdle_cmplP : (returnToIdle s).cmplP = s.cmplP := rfl
@[simp] theorem returnToIdle_doneP : (returnToIdle s).doneP = s.doneP := rfl
@[simp] theorem returnToIdle_errP : (returnToIdle s).errP = s.errP := rfl
@[simp] theorem returnToIdle_cerrP : (returnToIdle s).cerrP = s.cerrP := rfl
@[simp] theorem returnToIdle_ctrl : (returnToIdle s).ctrl = s.ctrl := rfl
@[simp] theorem returnToIdle_iv : (returnToIdle s).iv = s.iv := rfl
@[simp] theorem returnToIdle_chain : (returnToIdle s).chain = s.chain := rfl
@[simp] theorem returnToIdle_buf : (returnToIdle s).buf = zeroBlock := rfl
@[simp] theorem returnToIdle_cnt : (returnToIdle s).cnt = 0 := rfl
@[simp] theorem returnToIdle_hb : (returnToIdle s).hb = zeroBlock := rfl
@[simp] theorem returnToIdle_hbv : (returnToIdle s).hbv = false := rfl
@[simp] theorem returnToIdle_ofifo : (returnToIdle s).ofifo = s.ofifo := rfl
@[simp] theorem returnToIdle_din : (returnToIdle s).din = s.din := rfl
@[simp] theorem returnToIdle_dout : (returnToIdle s).dout = s.dout := rfl
@[simp] theorem returnToIdle_inBytes : (returnToIdle s).inBytes = s.inBytes := rfl
@[simp] theorem returnToIdle_outBytes : (returnToIdle s).outBytes = s.outBytes := rfl
@[simp] theorem returnToIdle_rdata : (returnToIdle s).rdata = s.rdata := rfl
@[simp] theorem returnToIdle_inputs : (returnToIdle s).inputs = s.inputs := rfl

end

/-! ## fifoPush -/

section
variable (bs : List Byte) (s : State)

@[simp] theorem fifoPush_state : (fifoPush bs s).state = s.state := rfl
@[simp] theorem fifoPush_busy : (fifoPush bs s).busy = s.busy := rfl
@[simp] theorem fifoPush_pend : (fifoPush bs s).pend = s.pend := rfl
@[simp] theorem fifoPush_err : (fifoPush bs s).err = s.err := rfl
@[simp] theorem fifoPush_cerr : (fifoPush bs s).cerr = s.cerr := rfl
@[simp] theorem fifoPush_ivw : (fifoPush bs s).ivw = s.ivw := rfl
@[simp] theorem fifoPush_cmplP : (fifoPush bs s).cmplP = s.cmplP := rfl
@[simp] theorem fifoPush_doneP : (fifoPush bs s).doneP = s.doneP := rfl
@[simp] theorem fifoPush_errP : (fifoPush bs s).errP = s.errP := rfl
@[simp] theorem fifoPush_cerrP : (fifoPush bs s).cerrP = s.cerrP := rfl
@[simp] theorem fifoPush_ctrl : (fifoPush bs s).ctrl = s.ctrl := rfl
@[simp] theorem fifoPush_iv : (fifoPush bs s).iv = s.iv := rfl
@[simp] theorem fifoPush_chain : (fifoPush bs s).chain = s.chain := rfl
@[simp] theorem fifoPush_buf : (fifoPush bs s).buf = s.buf := rfl
@[simp] theorem fifoPush_cnt : (fifoPush bs s).cnt = s.cnt := rfl
@[simp] theorem fifoPush_hb : (fifoPush bs s).hb = s.hb := rfl
@[simp] theorem fifoPush_hbv : (fifoPush bs s).hbv = s.hbv := rfl
@[simp] theorem fifoPush_ofifo : (fifoPush bs s).ofifo = s.ofifo ++ bs := rfl
@[simp] theorem fifoPush_din : (fifoPush bs s).din = s.din := rfl
@[simp] theorem fifoPush_dout : (fifoPush bs s).dout = s.dout := rfl
@[simp] theorem fifoPush_inBytes : (fifoPush bs s).inBytes = s.inBytes := rfl
@[simp] theorem fifoPush_outBytes : (fifoPush bs s).outBytes = s.outBytes + BitVec.ofNat 64 bs.length := rfl
@[simp] theorem fifoPush_rdata : (fifoPush bs s).rdata = s.rdata := rfl
@[simp] theorem fifoPush_inputs : (fifoPush bs s).inputs = s.inputs := rfl

end

/-! ## fifoPop -/

section
variable (n : Nat) (s : State)

@[simp] theorem fifoPop_state : (fifoPop n s).state = s.state := rfl
@[simp] theorem fifoPop_busy : (fifoPop n s).busy = s.busy := rfl
@[simp] theorem fifoPop_pend : (fifoPop n s).pend = s.pend := rfl
@[simp] theorem fifoPop_err : (fifoPop n s).err = s.err := rfl
@[simp] theorem fifoPop_cerr : (fifoPop n s).cerr = s.cerr := rfl
@[simp] theorem fifoPop_ivw : (fifoPop n s).ivw = s.ivw := rfl
@[simp] theorem fifoPop_cmplP : (fifoPop n s).cmplP = s.cmplP := rfl
@[simp] theorem fifoPop_doneP : (fifoPop n s).doneP = s.doneP := rfl
@[simp] theorem fifoPop_errP : (fifoPop n s).errP = s.errP := rfl
@[simp] theorem fifoPop_cerrP : (fifoPop n s).cerrP = s.cerrP := rfl
@[simp] theorem fifoPop_ctrl : (fifoPop n s).ctrl = s.ctrl := rfl
@[simp] theorem fifoPop_iv : (fifoPop n s).iv = s.iv := rfl
@[simp] theorem fifoPop_chain : (fifoPop n s).chain = s.chain := rfl
@[simp] theorem fifoPop_buf : (fifoPop n s).buf = s.buf := rfl
@[simp] theorem fifoPop_cnt : (fifoPop n s).cnt = s.cnt := rfl
@[simp] theorem fifoPop_hb : (fifoPop n s).hb = s.hb := rfl
@[simp] theorem fifoPop_hbv : (fifoPop n s).hbv = s.hbv := rfl
@[simp] theorem fifoPop_ofifo : (fifoPop n s).ofifo = s.ofifo.drop n := rfl
@[simp] theorem fifoPop_din : (fifoPop n s).din = s.din := rfl
@[simp] theorem fifoPop_dout : (fifoPop n s).dout = packBytes (s.ofifo.take n) := rfl
@[simp] theorem fifoPop_inBytes : (fifoPop n s).inBytes = s.inBytes := rfl
@[simp] theorem fifoPop_outBytes : (fifoPop n s).outBytes = s.outBytes := rfl
@[simp] theorem fifoPop_rdata : (fifoPop n s).rdata = s.rdata := rfl
@[simp] theorem fifoPop_inputs : (fifoPop n s).inputs = s.inputs := rfl

end

/-! ## initOp -/

section
variable (m : OpState) (s : State)

@[simp] theorem initOp_state : (initOp m s).state = m := rfl
@[simp] theorem initOp_busy : (initOp m s).busy = s.busy := rfl
@[simp] theorem initOp_pend : (initOp m s).pend = s.pend := rfl
@[simp] theorem initOp_err : (initOp m s).err = .none := rfl
@[simp] theorem initOp_cerr : (initOp m s).cerr = s.cerr := rfl
@[simp] theorem initOp_ivw : (initOp m s).ivw = 0 := rfl
@[simp] theorem initOp_cmplP : (initOp m s).cmplP = s.cmplP := rfl
@[simp] theorem initOp_doneP : (initOp m s).doneP = s.doneP := rfl
@[simp] theorem initOp_errP : (initOp m s).errP = s.errP := rfl
@[simp] theorem initOp_cerrP : (initOp m s).cerrP = s.cerrP := rfl
@[simp] theorem initOp_ctrl : (initOp m s).ctrl = s.ctrl := rfl
@[simp] theorem initOp_iv : (initOp m s).iv = s.iv := rfl
@[simp] theorem initOp_chain : (initOp m s).chain = s.iv := rfl
@[simp] theorem initOp_buf : (initOp m s).buf = zeroBlock := rfl
@[simp] theorem initOp_cnt : (initOp m s).cnt = 0 := rfl
@[simp] theorem initOp_hb : (initOp m s).hb = zeroBlock := rfl
@[simp] theorem initOp_hbv : (initOp m s).hbv = false := rfl
@[simp] theorem initOp_ofifo : (initOp m s).ofifo = s.ofifo := rfl
@[simp] theorem initOp_din : (initOp m s).din = s.din := rfl
@[simp] theorem initOp_dout : (initOp m s).dout = s.dout := rfl
@[simp] theorem initOp_inBytes : (initOp m s).inBytes = 0 := rfl
@[simp] theorem initOp_outBytes : (initOp m s).outBytes = 0 := rfl
@[simp] theorem initOp_rdata : (initOp m s).rdata = s.rdata := rfl
@[simp] theorem initOp_inputs : (initOp m s).inputs = s.inputs := rfl

end

/-! ## accept -/

section
variable (c : Command) (n : BitVec 3) (s : State)

@[simp] theorem accept_state : (accept c n s).state = s.state := rfl
@[simp] theorem accept_busy : (accept c n s).busy = true := rfl
@[simp] theorem accept_pend : (accept c n s).pend = some ⟨c, n, s.din⟩ := rfl
@[simp] theorem accept_err : (accept c n s).err = s.err := rfl
@[simp] theorem accept_cerr : (accept c n s).cerr = s.cerr := rfl
@[simp] theorem accept_ivw : (accept c n s).ivw = s.ivw := rfl
@[simp] theorem accept_cmplP : (accept c n s).cmplP = s.cmplP := rfl
@[simp] theorem accept_doneP : (accept c n s).doneP = s.doneP := rfl
@[simp] theorem accept_errP : (accept c n s).errP = s.errP := rfl
@[simp] theorem accept_cerrP : (accept c n s).cerrP = s.cerrP := rfl
@[simp] theorem accept_ctrl : (accept c n s).ctrl = s.ctrl := rfl
@[simp] theorem accept_iv : (accept c n s).iv = s.iv := rfl
@[simp] theorem accept_chain : (accept c n s).chain = s.chain := rfl
@[simp] theorem accept_buf : (accept c n s).buf = s.buf := rfl
@[simp] theorem accept_cnt : (accept c n s).cnt = s.cnt := rfl
@[simp] theorem accept_hb : (accept c n s).hb = s.hb := rfl
@[simp] theorem accept_hbv : (accept c n s).hbv = s.hbv := rfl
@[simp] theorem accept_ofifo : (accept c n s).ofifo = s.ofifo := rfl
@[simp] theorem accept_din : (accept c n s).din = s.din := rfl
@[simp] theorem accept_dout : (accept c n s).dout = s.dout := rfl
@[simp] theorem accept_inBytes : (accept c n s).inBytes = s.inBytes := rfl
@[simp] theorem accept_outBytes : (accept c n s).outBytes = s.outBytes := rfl
@[simp] theorem accept_rdata : (accept c n s).rdata = s.rdata := rfl
@[simp] theorem accept_inputs : (accept c n s).inputs = s.inputs := rfl

end

/-! ## finish -/

section
variable (s : State)

@[simp] theorem finish_state : (finish s).state = s.state := rfl
@[simp] theorem finish_busy : (finish s).busy = false := rfl
@[simp] theorem finish_pend : (finish s).pend = none := rfl
@[simp] theorem finish_err : (finish s).err = s.err := rfl
@[simp] theorem finish_cerr : (finish s).cerr = s.cerr := rfl
@[simp] theorem finish_ivw : (finish s).ivw = s.ivw := rfl
@[simp] theorem finish_cmplP : (finish s).cmplP = true := rfl
@[simp] theorem finish_doneP : (finish s).doneP = s.doneP := rfl
@[simp] theorem finish_errP : (finish s).errP = s.errP := rfl
@[simp] theorem finish_cerrP : (finish s).cerrP = s.cerrP := rfl
@[simp] theorem finish_ctrl : (finish s).ctrl = s.ctrl := rfl
@[simp] theorem finish_iv : (finish s).iv = s.iv := rfl
@[simp] theorem finish_chain : (finish s).chain = s.chain := rfl
@[simp] theorem finish_buf : (finish s).buf = s.buf := rfl
@[simp] theorem finish_cnt : (finish s).cnt = s.cnt := rfl
@[simp] theorem finish_hb : (finish s).hb = s.hb := rfl
@[simp] theorem finish_hbv : (finish s).hbv = s.hbv := rfl
@[simp] theorem finish_ofifo : (finish s).ofifo = s.ofifo := rfl
@[simp] theorem finish_din : (finish s).din = s.din := rfl
@[simp] theorem finish_dout : (finish s).dout = s.dout := rfl
@[simp] theorem finish_inBytes : (finish s).inBytes = s.inBytes := rfl
@[simp] theorem finish_outBytes : (finish s).outBytes = s.outBytes := rfl
@[simp] theorem finish_rdata : (finish s).rdata = s.rdata := rfl
@[simp] theorem finish_inputs : (finish s).inputs = s.inputs := rfl

end

/-! ## storeIv -/

section
variable (n : Fin 4) (v : Word) (s : State)

@[simp] theorem storeIv_state : (storeIv n v s).state = s.state := rfl
@[simp] theorem storeIv_busy : (storeIv n v s).busy = s.busy := rfl
@[simp] theorem storeIv_pend : (storeIv n v s).pend = s.pend := rfl
@[simp] theorem storeIv_err : (storeIv n v s).err = s.err := rfl
@[simp] theorem storeIv_cerr : (storeIv n v s).cerr = s.cerr := rfl
@[simp] theorem storeIv_ivw : (storeIv n v s).ivw = s.ivw ||| BitVec.ofNat 4 (2 ^ n.val) := rfl
@[simp] theorem storeIv_cmplP : (storeIv n v s).cmplP = s.cmplP := rfl
@[simp] theorem storeIv_doneP : (storeIv n v s).doneP = s.doneP := rfl
@[simp] theorem storeIv_errP : (storeIv n v s).errP = s.errP := rfl
@[simp] theorem storeIv_cerrP : (storeIv n v s).cerrP = s.cerrP := rfl
@[simp] theorem storeIv_ctrl : (storeIv n v s).ctrl = s.ctrl := rfl
@[simp] theorem storeIv_iv : (storeIv n v s).iv = setBlockWord s.iv n v := rfl
@[simp] theorem storeIv_chain : (storeIv n v s).chain = s.chain := rfl
@[simp] theorem storeIv_buf : (storeIv n v s).buf = s.buf := rfl
@[simp] theorem storeIv_cnt : (storeIv n v s).cnt = s.cnt := rfl
@[simp] theorem storeIv_hb : (storeIv n v s).hb = s.hb := rfl
@[simp] theorem storeIv_hbv : (storeIv n v s).hbv = s.hbv := rfl
@[simp] theorem storeIv_ofifo : (storeIv n v s).ofifo = s.ofifo := rfl
@[simp] theorem storeIv_din : (storeIv n v s).din = s.din := rfl
@[simp] theorem storeIv_dout : (storeIv n v s).dout = s.dout := rfl
@[simp] theorem storeIv_inBytes : (storeIv n v s).inBytes = s.inBytes := rfl
@[simp] theorem storeIv_outBytes : (storeIv n v s).outBytes = s.outBytes := rfl
@[simp] theorem storeIv_rdata : (storeIv n v s).rdata = s.rdata := rfl
@[simp] theorem storeIv_inputs : (storeIv n v s).inputs = s.inputs := rfl

end

/-! ## writeCtrl -/

section
variable (v : Word) (s : State)

@[simp] theorem writeCtrl_state : (writeCtrl v s).state = s.state := rfl
@[simp] theorem writeCtrl_busy : (writeCtrl v s).busy = s.busy := rfl
@[simp] theorem writeCtrl_pend : (writeCtrl v s).pend = s.pend := rfl
@[simp] theorem writeCtrl_err : (writeCtrl v s).err = s.err := rfl
@[simp] theorem writeCtrl_cerr : (writeCtrl v s).cerr = s.cerr := rfl
@[simp] theorem writeCtrl_ivw : (writeCtrl v s).ivw = s.ivw := rfl
@[simp] theorem writeCtrl_cmplP : (writeCtrl v s).cmplP = s.cmplP := rfl
@[simp] theorem writeCtrl_doneP : (writeCtrl v s).doneP = s.doneP := rfl
@[simp] theorem writeCtrl_errP : (writeCtrl v s).errP = s.errP := rfl
@[simp] theorem writeCtrl_cerrP : (writeCtrl v s).cerrP = s.cerrP := rfl
@[simp] theorem writeCtrl_ctrl : (writeCtrl v s).ctrl = v.extractLsb' 0 4 := rfl
@[simp] theorem writeCtrl_iv : (writeCtrl v s).iv = s.iv := rfl
@[simp] theorem writeCtrl_chain : (writeCtrl v s).chain = s.chain := rfl
@[simp] theorem writeCtrl_buf : (writeCtrl v s).buf = s.buf := rfl
@[simp] theorem writeCtrl_cnt : (writeCtrl v s).cnt = s.cnt := rfl
@[simp] theorem writeCtrl_hb : (writeCtrl v s).hb = s.hb := rfl
@[simp] theorem writeCtrl_hbv : (writeCtrl v s).hbv = s.hbv := rfl
@[simp] theorem writeCtrl_ofifo : (writeCtrl v s).ofifo = s.ofifo := rfl
@[simp] theorem writeCtrl_din : (writeCtrl v s).din = s.din := rfl
@[simp] theorem writeCtrl_dout : (writeCtrl v s).dout = s.dout := rfl
@[simp] theorem writeCtrl_inBytes : (writeCtrl v s).inBytes = s.inBytes := rfl
@[simp] theorem writeCtrl_outBytes : (writeCtrl v s).outBytes = s.outBytes := rfl
@[simp] theorem writeCtrl_rdata : (writeCtrl v s).rdata = s.rdata := rfl
@[simp] theorem writeCtrl_inputs : (writeCtrl v s).inputs = s.inputs := rfl

end

/-! ## writeDin -/

section
variable (v : Word) (s : State)

@[simp] theorem writeDin_state : (writeDin v s).state = s.state := rfl
@[simp] theorem writeDin_busy : (writeDin v s).busy = s.busy := rfl
@[simp] theorem writeDin_pend : (writeDin v s).pend = s.pend := rfl
@[simp] theorem writeDin_err : (writeDin v s).err = s.err := rfl
@[simp] theorem writeDin_cerr : (writeDin v s).cerr = s.cerr := rfl
@[simp] theorem writeDin_ivw : (writeDin v s).ivw = s.ivw := rfl
@[simp] theorem writeDin_cmplP : (writeDin v s).cmplP = s.cmplP := rfl
@[simp] theorem writeDin_doneP : (writeDin v s).doneP = s.doneP := rfl
@[simp] theorem writeDin_errP : (writeDin v s).errP = s.errP := rfl
@[simp] theorem writeDin_cerrP : (writeDin v s).cerrP = s.cerrP := rfl
@[simp] theorem writeDin_ctrl : (writeDin v s).ctrl = s.ctrl := rfl
@[simp] theorem writeDin_iv : (writeDin v s).iv = s.iv := rfl
@[simp] theorem writeDin_chain : (writeDin v s).chain = s.chain := rfl
@[simp] theorem writeDin_buf : (writeDin v s).buf = s.buf := rfl
@[simp] theorem writeDin_cnt : (writeDin v s).cnt = s.cnt := rfl
@[simp] theorem writeDin_hb : (writeDin v s).hb = s.hb := rfl
@[simp] theorem writeDin_hbv : (writeDin v s).hbv = s.hbv := rfl
@[simp] theorem writeDin_ofifo : (writeDin v s).ofifo = s.ofifo := rfl
@[simp] theorem writeDin_din : (writeDin v s).din = v := rfl
@[simp] theorem writeDin_dout : (writeDin v s).dout = s.dout := rfl
@[simp] theorem writeDin_inBytes : (writeDin v s).inBytes = s.inBytes := rfl
@[simp] theorem writeDin_outBytes : (writeDin v s).outBytes = s.outBytes := rfl
@[simp] theorem writeDin_rdata : (writeDin v s).rdata = s.rdata := rfl
@[simp] theorem writeDin_inputs : (writeDin v s).inputs = s.inputs := rfl

end

/-! ## readTo -/

section
variable (off : Nat) (s : State)

@[simp] theorem readTo_state : (readTo off s).state = s.state := rfl
@[simp] theorem readTo_busy : (readTo off s).busy = s.busy := rfl
@[simp] theorem readTo_pend : (readTo off s).pend = s.pend := rfl
@[simp] theorem readTo_err : (readTo off s).err = s.err := rfl
@[simp] theorem readTo_cerr : (readTo off s).cerr = s.cerr := rfl
@[simp] theorem readTo_ivw : (readTo off s).ivw = s.ivw := rfl
@[simp] theorem readTo_cmplP : (readTo off s).cmplP = s.cmplP := rfl
@[simp] theorem readTo_doneP : (readTo off s).doneP = s.doneP := rfl
@[simp] theorem readTo_errP : (readTo off s).errP = s.errP := rfl
@[simp] theorem readTo_cerrP : (readTo off s).cerrP = s.cerrP := rfl
@[simp] theorem readTo_ctrl : (readTo off s).ctrl = s.ctrl := rfl
@[simp] theorem readTo_iv : (readTo off s).iv = s.iv := rfl
@[simp] theorem readTo_chain : (readTo off s).chain = s.chain := rfl
@[simp] theorem readTo_buf : (readTo off s).buf = s.buf := rfl
@[simp] theorem readTo_cnt : (readTo off s).cnt = s.cnt := rfl
@[simp] theorem readTo_hb : (readTo off s).hb = s.hb := rfl
@[simp] theorem readTo_hbv : (readTo off s).hbv = s.hbv := rfl
@[simp] theorem readTo_ofifo : (readTo off s).ofifo = s.ofifo := rfl
@[simp] theorem readTo_din : (readTo off s).din = s.din := rfl
@[simp] theorem readTo_dout : (readTo off s).dout = s.dout := rfl
@[simp] theorem readTo_inBytes : (readTo off s).inBytes = s.inBytes := rfl
@[simp] theorem readTo_outBytes : (readTo off s).outBytes = s.outBytes := rfl
@[simp] theorem readTo_rdata : (readTo off s).rdata = some (busRead s off) := rfl
@[simp] theorem readTo_inputs : (readTo off s).inputs = s.inputs := rfl

end

/-! ## withInputs -/

section
variable (rest : List Event) (s : State)

@[simp] theorem withInputs_state : (withInputs rest s).state = s.state := rfl
@[simp] theorem withInputs_busy : (withInputs rest s).busy = s.busy := rfl
@[simp] theorem withInputs_pend : (withInputs rest s).pend = s.pend := rfl
@[simp] theorem withInputs_err : (withInputs rest s).err = s.err := rfl
@[simp] theorem withInputs_cerr : (withInputs rest s).cerr = s.cerr := rfl
@[simp] theorem withInputs_ivw : (withInputs rest s).ivw = s.ivw := rfl
@[simp] theorem withInputs_cmplP : (withInputs rest s).cmplP = s.cmplP := rfl
@[simp] theorem withInputs_doneP : (withInputs rest s).doneP = s.doneP := rfl
@[simp] theorem withInputs_errP : (withInputs rest s).errP = s.errP := rfl
@[simp] theorem withInputs_cerrP : (withInputs rest s).cerrP = s.cerrP := rfl
@[simp] theorem withInputs_ctrl : (withInputs rest s).ctrl = s.ctrl := rfl
@[simp] theorem withInputs_iv : (withInputs rest s).iv = s.iv := rfl
@[simp] theorem withInputs_chain : (withInputs rest s).chain = s.chain := rfl
@[simp] theorem withInputs_buf : (withInputs rest s).buf = s.buf := rfl
@[simp] theorem withInputs_cnt : (withInputs rest s).cnt = s.cnt := rfl
@[simp] theorem withInputs_hb : (withInputs rest s).hb = s.hb := rfl
@[simp] theorem withInputs_hbv : (withInputs rest s).hbv = s.hbv := rfl
@[simp] theorem withInputs_ofifo : (withInputs rest s).ofifo = s.ofifo := rfl
@[simp] theorem withInputs_din : (withInputs rest s).din = s.din := rfl
@[simp] theorem withInputs_dout : (withInputs rest s).dout = s.dout := rfl
@[simp] theorem withInputs_inBytes : (withInputs rest s).inBytes = s.inBytes := rfl
@[simp] theorem withInputs_outBytes : (withInputs rest s).outBytes = s.outBytes := rfl
@[simp] theorem withInputs_rdata : (withInputs rest s).rdata = s.rdata := rfl
@[simp] theorem withInputs_inputs : (withInputs rest s).inputs = rest := rfl

end

/-! ## clearPending -/

section
variable (v : Word) (s : State)

@[simp] theorem clearPending_state : (clearPending v s).state = s.state := rfl
@[simp] theorem clearPending_busy : (clearPending v s).busy = s.busy := rfl
@[simp] theorem clearPending_pend : (clearPending v s).pend = s.pend := rfl
@[simp] theorem clearPending_err : (clearPending v s).err = s.err := rfl
@[simp] theorem clearPending_cerr : (clearPending v s).cerr = if v.getLsbD 19 then .none else s.cerr := rfl
@[simp] theorem clearPending_ivw : (clearPending v s).ivw = s.ivw := rfl
@[simp] theorem clearPending_cmplP : (clearPending v s).cmplP = (s.cmplP && !v.getLsbD 16) := rfl
@[simp] theorem clearPending_doneP : (clearPending v s).doneP = (s.doneP && !v.getLsbD 17) := rfl
@[simp] theorem clearPending_errP : (clearPending v s).errP = (s.errP && !v.getLsbD 18) := rfl
@[simp] theorem clearPending_cerrP : (clearPending v s).cerrP = (s.cerrP && !v.getLsbD 19) := rfl
@[simp] theorem clearPending_ctrl : (clearPending v s).ctrl = s.ctrl := rfl
@[simp] theorem clearPending_iv : (clearPending v s).iv = s.iv := rfl
@[simp] theorem clearPending_chain : (clearPending v s).chain = s.chain := rfl
@[simp] theorem clearPending_buf : (clearPending v s).buf = s.buf := rfl
@[simp] theorem clearPending_cnt : (clearPending v s).cnt = s.cnt := rfl
@[simp] theorem clearPending_hb : (clearPending v s).hb = s.hb := rfl
@[simp] theorem clearPending_hbv : (clearPending v s).hbv = s.hbv := rfl
@[simp] theorem clearPending_ofifo : (clearPending v s).ofifo = s.ofifo := rfl
@[simp] theorem clearPending_din : (clearPending v s).din = s.din := rfl
@[simp] theorem clearPending_dout : (clearPending v s).dout = s.dout := rfl
@[simp] theorem clearPending_inBytes : (clearPending v s).inBytes = s.inBytes := rfl
@[simp] theorem clearPending_outBytes : (clearPending v s).outBytes = s.outBytes := rfl
@[simp] theorem clearPending_rdata : (clearPending v s).rdata = s.rdata := rfl
@[simp] theorem clearPending_inputs : (clearPending v s).inputs = s.inputs := rfl

end

/-- Giving a state the orders it has changes nothing. -/
theorem withInputs_same {s : State} {l : List Event} (h : s.inputs = l) : withInputs l s = s := by
  subst h; rfl

end Sys2Proof.Machine
end

