-- ==== Sys2Proof/Laws/Ops.lean ====
section
/-! SUPPORT. One specification for each shared operation: what it can do, said once, for proofs to cite. -/

namespace Sys2Proof.Machine

open Sys2Proof

/-! ## Commands: the pending one, acceptance, completion -/

/-- When a command's completion is the step that is due. -/
theorem pendingDin_eq_some {c : Command} {n : BitVec 3} {s : State} {d : Word} :
    pendingDin c n s = some d ↔ s.busy = true ∧ s.pend = some ⟨c, n, d⟩ := by
  unfold pendingDin
  split
  · next p hb hp =>
    cases p
    simp only [hb, hp, Option.some.injEq, Pend.mk.injEq, true_and]
    split_ifs with h <;> simp_all
  · next h =>
    simp only [reduceCtorEq, false_iff, not_and]
    intro hb hp; exact h _ hb hp

/-- The step of a command that is the pending one. -/
theorem commandStep_pending {c : Command} {n : BitVec 3} {s : State} {d : Word} (f : Word → State → State)
    (hb : s.busy = true) (hp : s.pend = some ⟨c, n, d⟩) : commandStep c n f s = finish (f d s) := by
  simp [commandStep, pendingDin_eq_some.2 ⟨hb, hp⟩]

/-- The step of a command that is not the pending one. -/
theorem commandStep_issue {c : Command} {n : BitVec 3} {s : State} (f : Word → State → State)
    (h : ¬∃ d, s.busy = true ∧ s.pend = some ⟨c, n, d⟩) : commandStep c n f s = issue (opCode c) n s := by
  have : pendingDin c n s = none := by
    cases hd : pendingDin c n s with
    | none => rfl
    | some d => exact absurd ⟨d, pendingDin_eq_some.1 hd⟩ h
  simp [commandStep, this]

/-- A write of CMD while BUSY. -/
theorem issue_busy {s : State} (h : s.busy = true) (op : BitVec 4) (n : BitVec 3) :
    issue op n s = cmdError .busy s := by simp [issue, h]

/-- A write of CMD with a reserved opcode. -/
theorem issue_reserved {s : State} {op : BitVec 4} (h : s.busy = false) (ho : commandOf op = none) (n : BitVec 3) :
    issue op n s = cmdError .reservedOp s := by simp [issue, h, ho]

/-- A write of CMD whose checks all pass. -/
theorem issue_accepted {s : State} {op : BitVec 4} {c : Command} {n : BitVec 3} (h : s.busy = false)
    (ho : commandOf op = some c) (hc : commandFault c n s = .none) : issue op n s = accept c n s := by
  simp [issue, h, ho, hc]

/-- A write of CMD one of whose checks 3 to 8 fails. -/
theorem issue_refused {s : State} {op : BitVec 4} {c : Command} {n : BitVec 3} (h : s.busy = false)
    (ho : commandOf op = some c) (hc : commandFault c n s ≠ .none) :
    issue op n s = cmdError (commandFault c n s) s := by
  simp only [issue, h, ho, Bool.false_eq_true, if_false]

/-- All that a write of CMD can do: it is accepted, with its checks passed while BUSY = 0, or it is refused. -/
theorem issue_cases (op : BitVec 4) (n : BitVec 3) (s : State) :
    (∃ c, commandOf op = some c ∧ s.busy = false ∧ commandFault c n s = .none ∧ issue op n s = accept c n s) ∨
    (∃ e, e ≠ CmdErr.none ∧ issue op n s = cmdError e s) := by
  cases hb : s.busy with
  | true => exact .inr ⟨.busy, by decide, issue_busy hb op n⟩
  | false =>
    cases ho : commandOf op with
    | none => exact .inr ⟨.reservedOp, by decide, issue_reserved hb ho n⟩
    | some c =>
      by_cases hc : commandFault c n s = .none
      · exact .inl ⟨c, rfl, rfl, hc, issue_accepted hb ho hc⟩
      · exact .inr ⟨_, hc, issue_refused hb ho hc⟩

/-- The checks read STATE, IVW, CNT, HBV and the FIFO only. -/
theorem commandFault_congr {s t : State} (hs : t.state = s.state) (hi : t.ivw = s.ivw) (hc : t.cnt = s.cnt)
    (hv : t.hbv = s.hbv) (ho : t.ofifo = s.ofifo) (c : Command) (n : BitVec 3) :
    commandFault c n t = commandFault c n s := by
  obtain ⟨⟩ := s
  obtain ⟨⟩ := t
  simp only at hs hi hc hv ho
  subst hs hi hc hv ho
  rfl

/-- All that a write of IVn can do. -/
theorem writeIv_cases (n : Fin 4) (v : Word) (s : State) :
    (s.busy = false ∧ s.state = .idle ∧ writeIv n v s = storeIv n v s) ∨
    ((s.busy = true ∨ s.state ≠ .idle) ∧ writeIv n v s = cmdError .locked s) := by
  unfold writeIv
  cases s.busy <;> by_cases h : s.state = .idle <;> simp [h]

/-! ## The datapath -/

/-- Byte i of XOR16. -/
@[simp] theorem xor16_get (a b : Block) (i : Nat) (h : i < 16) : (xor16 a b)[i] = a[i] ^^^ b[i] := by
  simp [xor16]

/-- XOR16 with the same block twice gives the first block back. -/
theorem xor16_cancel (a b : Block) : xor16 (xor16 a b) b = a := by
  ext i h; simp

/-- Byte i of a padded block. -/
theorem padBlock_get (b : Block) (cnt : Fin 16) (i : Nat) (h : i < 16) :
    (padBlock b cnt)[i] = if i < cnt.val then b[i] else BitVec.ofNat 8 (16 - cnt.val) := by
  simp only [padBlock, Vector.getElem_ofFn]; rfl

/-- A byte that completes no block. -/
theorem accByte_gathers (c : Cipher) (s : State) (b : Byte) (h : s.cnt.val + 1 < 16) :
    accByte c s b = { s with buf := s.buf.set s.cnt b, cnt := ⟨s.cnt.val + 1, h⟩ } := by
  simp [accByte, h]

/-- The sixteenth byte of a block. -/
theorem accByte_completes (c : Cipher) (s : State) (b : Byte) (h : s.cnt.val = 15) :
    accByte c s b =
      { processBlock c (s.buf.set s.cnt b) { s with buf := s.buf.set s.cnt b } with cnt := 0 } := by
  simp [accByte, h]

/-- The frame of a processed block: what neither EncBlock nor DecBlock touches. -/
theorem processBlock_frame (c : Cipher) (b : Block) (s : State) :
    let t := processBlock c b s
    t = { s with
      chain := t.chain, hb := t.hb, hbv := t.hbv, ofifo := t.ofifo, outBytes := t.outBytes } := by
  simp only [processBlock, encBlock, decBlock, releaseHoldBack, fifoPush]
  split_ifs <;> rfl

/-- The frame of an accepted byte. -/
theorem accByte_frame (c : Cipher) (s : State) (b : Byte) :
    let t := accByte c s b
    t = { s with
      buf := t.buf, cnt := t.cnt, chain := t.chain, hb := t.hb, hbv := t.hbv, ofifo := t.ofifo,
      outBytes := t.outBytes } := by
  simp only [accByte]
  split_ifs
  · rfl
  · have h := processBlock_frame c (s.buf.set s.cnt b) { s with buf := s.buf.set s.cnt b }
    simp only at h
    rw [h]

/-- The frame of PUSH's bytes. -/
theorem accBytes_frame (c : Cipher) (bs : List Byte) (s : State) :
    let t := accBytes c bs s
    t = { s with
      buf := t.buf, cnt := t.cnt, chain := t.chain, hb := t.hb, hbv := t.hbv, ofifo := t.ofifo,
      outBytes := t.outBytes } := by
  induction bs generalizing s with
  | nil => rfl
  | cons b bs ih =>
    have h1 := accByte_frame c s b
    have h2 := ih (accByte c s b)
    simp only [accBytes, List.foldl_cons] at *
    rw [h1] at h2 ⊢
    rw [h2]

@[simp] theorem accBytes_nil (c : Cipher) (s : State) : accBytes c [] s = s := rfl

@[simp] theorem accBytes_cons (c : Cipher) (b : Byte) (bs : List Byte) (s : State) :
    accBytes c (b :: bs) s = accBytes c bs (accByte c s b) := rfl

/-- PUSHing two strings in turn is PUSHing them joined. -/
theorem accBytes_append (c : Cipher) (xs ys : List Byte) (s : State) :
    accBytes c (xs ++ ys) s = accBytes c ys (accBytes c xs s) := by
  simp [accBytes, List.foldl_append]

/-- Bytes that complete no block stand in BUF after those it held. -/
theorem accBytes_gathers (c : Cipher) (bs : List Byte) (s : State) (h : s.cnt.val + bs.length < 16) :
    ∃ buf : Block, accBytes c bs s = { s with buf := buf, cnt := ⟨s.cnt.val + bs.length, h⟩ } ∧
      ∀ (k : Nat) (hk : k < 16), buf[k] =
        if s.cnt.val ≤ k ∧ k < s.cnt.val + bs.length then bs.getD (k - s.cnt.val) 0 else s.buf[k] := by
  induction bs generalizing s with
  | nil => exact ⟨s.buf, rfl, fun k hk => by simp⟩
  | cons b bs ih =>
    have h1 : s.cnt.val + 1 < 16 := by simp at h; omega
    rw [accBytes_cons, accByte_gathers c s b h1]
    obtain ⟨buf, he, hb⟩ := ih { s with buf := s.buf.set s.cnt b, cnt := ⟨s.cnt.val + 1, h1⟩ }
      (by simp at h ⊢; omega)
    refine ⟨buf, ?_, fun k hk => ?_⟩
    · rw [he]; congr 2; simp; omega
    · rw [hb k hk]
      simp only [List.length_cons, Vector.getElem_set]
      by_cases hk1 : s.cnt.val = k
      · subst hk1; simp
      · by_cases hk2 : s.cnt.val + 1 ≤ k ∧ k < s.cnt.val + 1 + bs.length
        · have : k - s.cnt.val = (k - (s.cnt.val + 1)) + 1 := by omega
          rw [if_pos hk2, if_pos (by omega), this, List.getD_cons_succ]
        · rw [if_neg hk2, if_neg hk1, if_neg (by omega)]

/-- Bytes that complete a block, and no second one: the block B is processed, and the bytes left over begin the next. -/
theorem accBytes_completes (c : Cipher) (s : State) (bs : List Byte) (B : Block) (h : 16 ≤ s.cnt.val + bs.length)
    (h2 : s.cnt.val + bs.length < 32)
    (hB : ∀ (k : Nat) (hk : k < 16),
      B[k] = if k < s.cnt.val then s.buf[k] else bs.getD (k - s.cnt.val) 0) :
    ∃ buf : Block,
      accBytes c bs s =
        { processBlock c B s with buf := buf, cnt := ⟨s.cnt.val + bs.length - 16, by omega⟩ } ∧
      ∀ (k : Nat) (hk : k < 16), k < s.cnt.val + bs.length - 16 →
        buf[k] = bs.getD (16 - s.cnt.val + k) 0 := by
  have hs := s.cnt.2
  obtain ⟨xs, y, zs, rfl, hx⟩ : ∃ xs y zs, bs = xs ++ y :: zs ∧ xs.length = 15 - s.cnt.val := by
    refine ⟨bs.take (15 - s.cnt.val), bs[15 - s.cnt.val]'(by omega), bs.drop (16 - s.cnt.val), ?_, by simp; omega⟩
    have : 16 - s.cnt.val = (15 - s.cnt.val) + 1 := by omega
    rw [this, List.getElem_cons_drop, List.take_append_drop]
  rw [accBytes_append, accBytes_cons]
  obtain ⟨b1, e1, g1⟩ := accBytes_gathers c xs s (by omega)
  have hc : (accBytes c xs s).cnt.val = 15 := by rw [e1]; simp; omega
  rw [accByte_completes c _ _ hc]
  have hBeq : (accBytes c xs s).buf.set (accBytes c xs s).cnt y = B := by
    apply Vector.ext; intro k hk
    rw [hB k hk, Vector.getElem_set]
    simp only [hc]
    by_cases h15 : 15 = k
    · subst h15
      have : 15 - s.cnt.val = xs.length := by omega
      have h3 : ¬ (15 < s.cnt.val) := by omega
      simp [h3, this]
    · rw [if_neg h15, e1, g1 k hk]
      by_cases h4 : k < s.cnt.val
      · rw [if_neg (by omega), if_pos h4]
      · rw [if_pos (by omega), if_neg h4, List.getD_append _ _ _ _ (by omega)]
  rw [hBeq]
  simp only [List.length_append, List.length_cons] at h h2 ⊢
  obtain ⟨b2, e2, g2⟩ := accBytes_gathers c zs { processBlock c B { accBytes c xs s with buf := B } with cnt := 0 } (by simp; omega)
  refine ⟨b2, ?_, ?_⟩
  · rw [e2, e1]
    have : ((0:Fin 16).val + zs.length) = s.cnt.val + (xs.length + (zs.length+1)) - 16 := by simp; omega
    simp only [processBlock, encBlock, decBlock, releaseHoldBack, fifoPush]
    split_ifs <;> simp <;> omega
  · intro k hk hlt
    rw [g2 k hk]
    rw [if_pos (by simp; omega), List.getD_append_right _ _ _ _ (by omega)]
    have : 16 - s.cnt.val + k - xs.length = (k - (0:Fin 16).val) + 1 := by simp; omega
    rw [this, List.getD_cons_succ]

/-- The bytes of a PUSH's data operand. -/
theorem dataBytes_length (n : BitVec 3) (d : Word) : (dataBytes n d).length = n.toNat := by
  simp [dataBytes]

theorem dataBytes_getD (n : BitVec 3) (d : Word) (j : Nat) (h : j < n.toNat) :
    (dataBytes n d).getD j 0 = byteOf d j := by
  simp [dataBytes, List.getD, h]

/-- All that FINAL can do in DEC. -/
theorem finalDec_cases (s : State) :
    (s.cnt ≠ 0 ∧ finalDec s = streamError .truncatedCiphertext s) ∨
    (s.cnt = 0 ∧ s.hbv = false ∧ finalDec s = streamError .badPadding s) ∨
    (s.cnt = 0 ∧ s.hbv = true ∧ padOk s.hb = false ∧ finalDec s = streamError .badPadding s) ∨
    (s.cnt = 0 ∧ s.hbv = true ∧ padOk s.hb = true ∧ finalDec s = unstrip (padCount s.hb) s) := by
  unfold finalDec
  by_cases h1 : s.cnt = 0 <;> cases h2 : s.hbv <;> cases h3 : padOk s.hb <;> simp [h1]

/-- An accepted pad count is 1 to 16. -/
theorem padOk_count {hb : Block} (h : padOk hb = true) : 1 ≤ padCount hb ∧ padCount hb ≤ 16 := by
  simp [padOk] at h; omega

/-- What Unpad leaves. -/
theorem unpad_length (hb : Block) (k : Nat) : (unpad hb k).length = 16 - k := by
  simp [unpad]

/-! ## What the checks of an accepted command leave -/

/-- The checks of INIT_ENC and INIT_DEC: IDLE, and all four IV words written. -/
theorem accepted_init {c : Command} {n : BitVec 3} {s : State} (hc : c = .initEnc ∨ c = .initDec)
    (h : commandFault c n s = .none) : s.state = .idle ∧ s.ivw = 0b1111#4 := by
  rcases hc with rfl | rfl <;> cases hs : s.state <;> by_cases hi : s.ivw = 0b1111#4 <;>
    simp_all [commandFault, usesCount, legalIn, isInit]

/-- The checks of PUSH. -/
theorem accepted_push {n : BitVec 3} {s : State} (h : commandFault .push n s = .none) :
    1 ≤ n.toNat ∧ n.toNat ≤ 4 ∧ (s.state = .enc ∨ s.state = .dec) ∧
      (16 ≤ s.cnt.val + n.toNat → s.ofifo.length + (if s.state = .enc ∨ s.hbv = true then 16 else 0) ≤ 32) := by
  cases hn : countLegal n <;> simp [commandFault, usesCount, hn] at h
  simp only [countLegal, Bool.and_eq_true, decide_eq_true_eq] at hn
  cases hs : s.state <;> cases hv : s.hbv <;>
    simp [legalIn, hs, hv, hasRoom, completesBlock, emitSize, isInit, Config.ofifoDepth] at h ⊢ <;>
    exact ⟨hn.1, hn.2, fun h5 => by by_contra h6; have := h h5; omega⟩

/-- The checks of FINAL. -/
theorem accepted_final {n : BitVec 3} {s : State} (h : commandFault .final n s = .none) :
    (s.state = .enc ∨ s.state = .dec) ∧ s.ofifo.length ≤ 16 := by
  cases hs : s.state <;>
    simp [commandFault, usesCount, legalIn, hs, hasRoom, isInit, Config.ofifoDepth] at h ⊢ <;> omega

/-- The checks of POP. -/
theorem accepted_pop {n : BitVec 3} {s : State} (h : commandFault .pop n s = .none) :
    1 ≤ n.toNat ∧ n.toNat ≤ 4 ∧ n.toNat ≤ s.ofifo.length := by
  cases hn : countLegal n <;> simp [commandFault, usesCount, hn, legalIn, hasRoom, isInit] at h
  simp only [countLegal, Bool.and_eq_true, decide_eq_true_eq] at hn
  omega

/-- The checks of ABORT. -/
theorem accepted_abort {n : BitVec 3} {s : State} (h : commandFault .abort n s = .none) :
    s.state = .enc ∨ s.state = .dec ∨ s.state = .done := by
  cases hs : s.state <;> simp [commandFault, usesCount, legalIn, hs] at h ⊢

/-- The checks of CLEAR. -/
theorem accepted_clear {n : BitVec 3} {s : State} (h : commandFault .clear n s = .none) :
    (s.state = .idle ∨ s.state = .done ∨ s.state = .error) ∧ (s.state = .done → s.ofifo = []) := by
  cases hs : s.state <;> simp [commandFault, usesCount, legalIn, hs, isInit, hasRoom] at h ⊢
  exact h

/-! ## The orders to come -/

theorem accByte_withInputs (c : Cipher) (l : List Event) (s : State) (b : Byte) :
    accByte c (withInputs l s) b = withInputs l (accByte c s b) := by
  by_cases h1 : s.cnt.val + 1 < 16 <;> by_cases h2 : s.state = .enc <;> cases h3 : s.hbv <;>
    simp [accByte, processBlock, encBlock, decBlock, releaseHoldBack, fifoPush, withInputs, h1, h2, h3]

theorem accBytes_withInputs (c : Cipher) (l : List Event) (bs : List Byte) (s : State) :
    accBytes c bs (withInputs l s) = withInputs l (accBytes c bs s) := by
  induction bs generalizing s with
  | nil => rfl
  | cons b bs ih => rw [accBytes_cons, accBytes_cons, accByte_withInputs, ih]

/-- FINAL neither reads nor changes the orders to come. -/
theorem finalOp_withInputs (c : Cipher) (l : List Event) (s : State) :
    finalOp c (withInputs l s) = withInputs l (finalOp c s) := by
  by_cases h1 : s.state = .enc
  · simp only [finalOp, withInputs_state, h1, if_true]; rfl
  · simp only [finalOp, withInputs_state, h1, if_false]
    have key : finalDec (withInputs l s) = withInputs l (finalDec s) := by
      rcases finalDec_cases s with ⟨a, e⟩ | ⟨a, b, e⟩ | ⟨a, b, d, e⟩ | ⟨a, b, d, e⟩ <;> rw [e] <;>
        simp [finalDec, *] <;> rfl
    exact key

/-- A completion neither reads nor changes the orders to come. -/
theorem complete_withInputs (c : Cipher) (p : Pend) (l : List Event) (s : State) :
    complete c p (withInputs l s) = withInputs l (complete c p s) := by
  obtain ⟨op, n, d⟩ := p
  cases op <;> simp only [complete, commandEffect]
  case push => simp only [pushOp, accBytes_withInputs]; rfl
  case final => rw [finalOp_withInputs]; rfl
  all_goals rfl

end Sys2Proof.Machine
end

