-- ==== Sys2Proof/Laws/PerInstr.lean ====
section
/-! SUPPORT. One statement about every instruction as syntax, and its lemma for each constructor: what the encoder writes
is an admitted access (spec/20_memory.md R63), and for format CMD a write at offset 0x0C (spec/30_encoding.md R80). -/

namespace Sys2Proof.Laws.EncodesToAdmitted

open Sys2Proof

/-- A well-formed instruction is encoded as an admitted access; one of format CMD as a write of CMD. -/
def Statement (i : Instr) : Prop :=
  i.wellFormed = true →
    admission (encode i) = none ∧ (i.format = .cmd → (encode i).dir = .write ∧ (encode i).off = 0x0C)

/-- A 32-bit access at an aligned offset of the window is admitted. -/
theorem admission_at {dir : Dir} {off : Nat} {v : Word} (h : off < 128) (h4 : off % 4 = 0) :
    admission ⟨dir, 32, off, v⟩ = none := admission_eq_none.2 ⟨rfl, h, h4⟩

theorem nop (n : BitVec 3) (rsvd : BitVec 25) : Statement (.nop n rsvd) :=
  fun _ => ⟨admission_at (by decide) (by decide), fun _ => ⟨rfl, rfl⟩⟩

theorem initEnc (n : BitVec 3) (rsvd : BitVec 25) : Statement (.initEnc n rsvd) :=
  fun _ => ⟨admission_at (by decide) (by decide), fun _ => ⟨rfl, rfl⟩⟩

theorem initDec (n : BitVec 3) (rsvd : BitVec 25) : Statement (.initDec n rsvd) :=
  fun _ => ⟨admission_at (by decide) (by decide), fun _ => ⟨rfl, rfl⟩⟩

theorem push (n : BitVec 3) (rsvd : BitVec 25) : Statement (.push n rsvd) :=
  fun _ => ⟨admission_at (by decide) (by decide), fun _ => ⟨rfl, rfl⟩⟩

theorem final (n : BitVec 3) (rsvd : BitVec 25) : Statement (.final n rsvd) :=
  fun _ => ⟨admission_at (by decide) (by decide), fun _ => ⟨rfl, rfl⟩⟩

theorem pop (n : BitVec 3) (rsvd : BitVec 25) : Statement (.pop n rsvd) :=
  fun _ => ⟨admission_at (by decide) (by decide), fun _ => ⟨rfl, rfl⟩⟩

theorem abort (n : BitVec 3) (rsvd : BitVec 25) : Statement (.abort n rsvd) :=
  fun _ => ⟨admission_at (by decide) (by decide), fun _ => ⟨rfl, rfl⟩⟩

theorem clear (n : BitVec 3) (rsvd : BitVec 25) : Statement (.clear n rsvd) :=
  fun _ => ⟨admission_at (by decide) (by decide), fun _ => ⟨rfl, rfl⟩⟩

theorem reservedOp (op : BitVec 4) (n : BitVec 3) (rsvd : BitVec 25) : Statement (.reservedOp op n rsvd) :=
  fun _ => ⟨admission_at (by decide) (by decide), fun _ => ⟨rfl, rfl⟩⟩

theorem rd (off : BitVec 7) : Statement (.rd off) := fun h =>
  ⟨admission_at off.isLt (by simpa [Instr.wellFormed, aligned] using h), fun hf => by contradiction⟩

theorem wrCtrl (v : Word) : Statement (.wrCtrl v) :=
  fun _ => ⟨admission_at (by decide) (by decide), fun hf => by contradiction⟩

theorem wrStatus (v : Word) : Statement (.wrStatus v) :=
  fun _ => ⟨admission_at (by decide) (by decide), fun hf => by contradiction⟩

theorem cmd (w : Word) : Statement (.cmd w) :=
  fun _ => ⟨admission_at (by decide) (by decide), fun hf => by contradiction⟩

theorem wrIv0 (v : Word) : Statement (.wrIv0 v) :=
  fun _ => ⟨admission_at (by decide) (by decide), fun hf => by contradiction⟩

theorem wrIv1 (v : Word) : Statement (.wrIv1 v) :=
  fun _ => ⟨admission_at (by decide) (by decide), fun hf => by contradiction⟩

theorem wrIv2 (v : Word) : Statement (.wrIv2 v) :=
  fun _ => ⟨admission_at (by decide) (by decide), fun hf => by contradiction⟩

theorem wrIv3 (v : Word) : Statement (.wrIv3 v) :=
  fun _ => ⟨admission_at (by decide) (by decide), fun hf => by contradiction⟩

theorem wrDin (v : Word) : Statement (.wrDin v) :=
  fun _ => ⟨admission_at (by decide) (by decide), fun hf => by contradiction⟩

theorem wrReadOnly (off : BitVec 7) (v : Word) : Statement (.wrReadOnly off v) := fun h =>
  ⟨admission_at off.isLt (by
    simp only [Instr.wellFormed, readOnlyOffsets, List.contains_eq_mem, decide_eq_true_eq, List.mem_cons,
      List.not_mem_nil, or_false] at h
    omega), fun hf => by contradiction⟩

theorem wrReserved (off : BitVec 7) (v : Word) : Statement (.wrReserved off v) := fun h =>
  ⟨admission_at off.isLt (by
    simp only [Instr.wellFormed, inReservedSpace, aligned, Bool.and_eq_true, beq_iff_eq] at h
    exact h.1), fun hf => by contradiction⟩

end Sys2Proof.Laws.EncodesToAdmitted
end

