-- ==== Sys2Proof/Laws/Step.lean ====
section
/-! SUPPORT. What one step can do, said once: the host's access, the completion, the reset, waiting, or the one fault. -/

namespace Sys2Proof.Machine

open Sys2Proof

/-- The row a pending command decodes to completes it. -/
theorem exec_pendWord {s : State} {p : Pend} (hb : s.busy = true) (hp : s.pend = some p) :
    exec (decodeCmd (pendWord p)) s = .next (complete Config.cipher p s) := by
  obtain ⟨c, n, d⟩ := p
  cases c <;> simp only [pendWord, decodeCmd_command, exec] <;>
    simp only [execNop, execInitEnc, execInitDec, execPush, execFinal, execPop, execAbort, execClear] <;>
    rw [commandStep_pending _ hb hp] <;> rfl

/-- A completion step whose command is pending. -/
theorem step_completion {s : State} {p : Pend} (hb : s.busy = true) (hp : s.pend = some p)
    (hi : s.inputs = [] ∨ ∃ rest, s.inputs = .completion :: rest) :
    step s = .next (complete Config.cipher p (withInputs s.inputs.tail s)) := by
  have key : fetch s = (.instr (decodeCmd (pendWord p)), withInputs s.inputs.tail s) := by
    obtain hi | ⟨rest, hi⟩ := hi <;> simp only [fetch, hi, hb, if_true, completionWork, hp, List.tail_cons]
    rw [List.tail_nil, withInputs_same hi]
  rw [step, key]
  exact exec_pendWord (s := withInputs s.inputs.tail s) hb hp

/-- Nothing pending and no order but a completion: the machine waits. -/
theorem step_wait {s : State} (hb : s.busy = false)
    (hi : s.inputs = [] ∨ ∃ rest, s.inputs = .completion :: rest) :
    step s = .next (withInputs s.inputs.tail s) := by
  have key : fetch s = (.wait, withInputs s.inputs.tail s) := by
    obtain hi | ⟨rest, hi⟩ := hi <;> simp only [fetch, hi, hb, Bool.false_eq_true, if_false, List.tail_cons]
    rw [List.tail_nil, withInputs_same hi]
  rw [step, key]

/-- The rst input. -/
theorem step_reset {s : State} {rest : List Event} (hi : s.inputs = .reset :: rest) :
    step s = .next (resetStep (withInputs rest s)) := by
  simp only [step, fetch, hi]

/-- A host access that decodes. -/
theorem step_host {s : State} {a : Access} {rest : List Event} {i : Instr} (hi : s.inputs = .host a :: rest)
    (hd : decodeBus a = .ok i) : step s = exec i (withInputs rest s) := by
  simp only [step, fetch, hi, hostWork, hd]

/-- A host access that is not admitted. -/
theorem step_notAdmitted {s : State} {a : Access} {rest : List Event} {r : Reject} (hi : s.inputs = .host a :: rest)
    (hd : admission a = some r) : step s = .refused (.notAdmitted r) := by
  simp only [step, fetch, hi, hostWork, decodeBus_eq_error.2 hd]

/-- A completion step without a pending command. -/
theorem step_stuck {s : State} (hb : s.busy = true) (hp : s.pend = none)
    (hi : s.inputs = [] ∨ ∃ rest, s.inputs = .completion :: rest) : step s = .fault .completionWithoutPend := by
  obtain hi | ⟨rest, hi⟩ := hi <;> simp only [step, fetch, hi, hb, if_true, completionWork, hp]

/-- A step that goes on was one of four: a bus operation of the host, the completion of the pending command, a reset, or
waiting. -/
theorem step_cases {s t : State} (h : step s = .next t) :
    (∃ a rest i, s.inputs = .host a :: rest ∧ decodeBus a = .ok i ∧ exec i (withInputs rest s) = .next t) ∨
    (∃ p, s.busy = true ∧ s.pend = some p ∧ (s.inputs = [] ∨ ∃ rest, s.inputs = .completion :: rest) ∧
      t = complete Config.cipher p (withInputs s.inputs.tail s)) ∨
    (∃ rest, s.inputs = .reset :: rest ∧ t = resetStep (withInputs rest s)) ∨
    (s.busy = false ∧ (s.inputs = [] ∨ ∃ rest, s.inputs = .completion :: rest) ∧
      t = withInputs s.inputs.tail s) := by
  have quiet : (s.inputs = [] ∨ ∃ rest, s.inputs = .completion :: rest) →
      (∃ p, s.busy = true ∧ s.pend = some p ∧ t = complete Config.cipher p (withInputs s.inputs.tail s)) ∨
      (s.busy = false ∧ t = withInputs s.inputs.tail s) := fun hi => by
    rcases Bool.eq_false_or_eq_true s.busy with hb | hb
    · obtain hp | ⟨p, hp⟩ : s.pend = none ∨ ∃ p, s.pend = some p := by cases s.pend <;> simp
      · rw [step_stuck hb hp hi] at h; contradiction
      · rw [step_completion hb hp hi] at h
        injection h with h
        exact .inl ⟨p, hb, hp, h.symm⟩
    · rw [step_wait hb hi] at h
      injection h with h
      exact .inr ⟨hb, h.symm⟩
  obtain hi | ⟨e, rest, hi⟩ : s.inputs = [] ∨ ∃ e rest, s.inputs = e :: rest := by cases s.inputs <;> simp
  · rcases quiet (.inl hi) with ⟨p, hb, hp, ht⟩ | ⟨hb, ht⟩
    · exact .inr (.inl ⟨p, hb, hp, .inl hi, ht⟩)
    · exact .inr (.inr (.inr ⟨hb, .inl hi, ht⟩))
  rcases e with a | _ | _
  · obtain ⟨i, hd⟩ | ⟨r, hd⟩ : (∃ i, decodeBus a = .ok i) ∨ ∃ r, decodeBus a = .error r := by
      cases decodeBus a <;> simp
    · exact .inl ⟨a, rest, i, hi, hd, by rw [← step_host hi hd]; exact h⟩
    · rw [step_notAdmitted hi (decodeBus_eq_error.1 hd)] at h; contradiction
  · rcases quiet (.inr ⟨rest, hi⟩) with ⟨p, hb, hp, ht⟩ | ⟨hb, ht⟩
    · exact .inr (.inl ⟨p, hb, hp, .inr ⟨rest, hi⟩, ht⟩)
    · exact .inr (.inr (.inr ⟨hb, .inr ⟨rest, hi⟩, ht⟩))
  · rw [step_reset hi] at h
    injection h with h
    exact .inr (.inr (.inl ⟨rest, hi, h.symm⟩))

/-- All that a host access can do to the state it is made in. -/
theorem hostAccess_cases {a : Access} {i : Instr} {s t : State} (hd : decodeBus a = .ok i) (h : exec i s = .next t) :
    (a.dir = .read ∧ t = readTo a.off s) ∨
    (a.dir = .write ∧
      ((a.off = 0x04 ∧ t = writeCtrl a.data s) ∨ (a.off = 0x08 ∧ t = clearPending a.data s) ∨
       (a.off = 0x0C ∧ t = issue (cmdOp a.data) (cmdN a.data) s) ∨
       (∃ n : Fin 4, a.off = 0x10 + 4 * n.val ∧ t = writeIv n a.data s) ∨
       (a.off = 0x30 ∧ t = writeDin a.data s) ∨ t = s)) := by
  obtain ⟨ha, hi⟩ := decodeBus_eq_ok.1 hd
  obtain ⟨-, hlt, hal⟩ := admission_eq_none.1 ha
  cases hdir : a.dir with
  | read =>
    rw [hdir] at hi; subst hi
    simp only [exec, execRd] at h
    split_ifs at h
    injection h with h
    refine .inl ⟨rfl, ?_⟩
    rw [← h, BitVec.toNat_ofNat, Nat.mod_eq_of_lt (by omega)]
  | write =>
    rw [hdir] at hi
    refine .inr ⟨rfl, ?_⟩
    dsimp only at hi
    rcases decodeWrite_cases a.off a.data with ⟨ho, he⟩ | ⟨ho, he⟩ | ⟨ho, he⟩ | ⟨ho, he⟩ | ⟨ho, he⟩ | ⟨ho, he⟩ |
      ⟨ho, he⟩ | ⟨ho, he⟩ | ⟨-, he⟩ <;> rw [hi, he] at h
    case inr.inr.inr.inr.inr.inr.inr.inr =>
      refine .inr (.inr (.inr (.inr (.inr ?_))))
      split_ifs at h <;> simp only [exec, execWrReserved, execWrReadOnly] at h <;> split_ifs at h <;>
        injection h with h <;> exact h.symm
    all_goals
      simp only [exec, execWrCtrl, execWrStatus, execCmd, execWrIv0, execWrIv1, execWrIv2, execWrIv3, execWrDin] at h
      injection h with h
      subst h
    · exact .inl ⟨ho, rfl⟩
    · exact .inr (.inl ⟨ho, rfl⟩)
    · exact .inr (.inr (.inl ⟨ho, rfl⟩))
    · exact .inr (.inr (.inr (.inl ⟨0, ho, rfl⟩)))
    · exact .inr (.inr (.inr (.inl ⟨1, ho, rfl⟩)))
    · exact .inr (.inr (.inr (.inl ⟨2, ho, rfl⟩)))
    · exact .inr (.inr (.inr (.inl ⟨3, ho, rfl⟩)))
    · exact .inr (.inr (.inr (.inr (.inl ⟨ho, rfl⟩))))

/-- A run whose first step is known. -/
theorem run_of_next {k : Nat} {s t : State} (h : step s = .next t) :
    Sys2Proof.core.run (k + 1) s = Sys2Proof.core.run k t := by
  have h' : Sys2Proof.core.step s = .next t := h
  simp only [Host.Core.run, h']

end Sys2Proof.Machine
end

