-- ==== Sys2Proof/Tests/Slice0.lean ====
section
/-! SUPPORT. Tests: the well-formedness checks, one decoded word or access for every row of the opcode table, single steps
with the results spec/95_test_vectors.md gives, and for every obligation with hypotheses a state that meets them. -/

namespace Sys2Proof.Tests

open Sys2Proof Sys2Proof.Machine Sys2Proof.Claims

/-! ## Helpers -/

/-- What a test asks of a step's outcome, when it is a next state. -/
def goesTo (o : Host.Outcome State Fault Refusal) (p : State → Bool) : Bool :=
  match o with
  | .next t => p t
  | _ => false

/-- A block of given bytes. -/
def blk (l : List Nat) : Block := Vector.ofFn fun i : Fin 16 => BitVec.ofNat 8 (l.getD i.val 0)

/-- The block 00 01 .. 0F, called I in spec/95_test_vectors.md §3. -/
def ivI : Block := Vector.ofFn fun i : Fin 16 => BitVec.ofNat 8 i.val

/-- T-ID (spec/95_test_vectors.md §1). -/
def tId : Cipher := ⟨fun x => x, fun y => y⟩

/-- T-ROT (spec/95_test_vectors.md §1). -/
def tRot : Cipher :=
  ⟨fun x => Vector.ofFn fun i : Fin 16 => x[(i.val + 1) % 16]'(Nat.mod_lt _ (by decide)),
   fun y => Vector.ofFn fun i : Fin 16 => y[(i.val + 15) % 16]'(Nat.mod_lt _ (by decide))⟩

/-- IDLE with the IV I written. -/
def ready : State := { State.reset with iv := ivI, ivw := 0b1111#4 }

/-- The command c is pending in s. -/
def waiting (s : State) (c : Command) (n : BitVec 3) (d : Word) : State :=
  { s with busy := true, pend := some ⟨c, n, d⟩ }

/-- An encrypt operation right after its INIT, IV = 0. -/
def encNow : State := { State.reset with state := .enc, cmplP := true }

/-- A decrypt operation right after its INIT, IV = 0. -/
def decNow : State := { State.reset with state := .dec, cmplP := true }

/-- A FIFO of n bytes 41. -/
def fifo41 (n : Nat) : List Byte := List.replicate n 0x41#8

/-! ## WellFormed: an ill-formed term for each check -/

theorem test_illFormed_reservedOp : (Instr.reservedOp 7 0 0).wellFormed = false := by decide
theorem test_illFormed_rd_misaligned : (Instr.rd 0x06).wellFormed = false := by decide
theorem test_illFormed_wrReadOnly_ctrl : (Instr.wrReadOnly 0x04 0).wellFormed = false := by decide
theorem test_illFormed_wrReadOnly_misaligned : (Instr.wrReadOnly 0x21 0).wellFormed = false := by decide
theorem test_illFormed_wrReserved_below : (Instr.wrReserved 0x4C 0).wellFormed = false := by decide
theorem test_illFormed_wrReserved_misaligned : (Instr.wrReserved 0x52 0).wellFormed = false := by decide

/-! ## Decoding, from words written out bit by bit after spec/30_encoding.md R81, R82 and accesses after R89 -/

theorem test_decode_nop : decodeCmd 0b0000000000000000000000000_000_0000#32 = .nop 0 0 := by decide
theorem test_decode_initEnc : decodeCmd 0b0000000000000000000000000_000_0001#32 = .initEnc 0 0 := by decide
theorem test_decode_initDec : decodeCmd 0b0000000000000000000000000_000_0010#32 = .initDec 0 0 := by decide
theorem test_decode_push : decodeCmd 0b0000000000000000000000000_011_0011#32 = .push 3 0 := by decide
theorem test_decode_final : decodeCmd 0b1111111111111111111111111_000_0100#32 = .final 0 0x1FFFFFF#25 := by decide
theorem test_decode_pop : decodeCmd 0b0000000000000000000000000_100_0101#32 = .pop 4 0 := by decide
theorem test_decode_abort : decodeCmd 0b1000000000000000000000000_000_0110#32 = .abort 0 0x1000000#25 := by decide
theorem test_decode_clear : decodeCmd 0b0000000000000000000000001_111_0111#32 = .clear 7 1 := by decide
theorem test_decode_reservedOp_low : decodeCmd 0b0000000000000000000000000_001_1000#32 = .reservedOp 8 1 0 := by decide
theorem test_decode_reservedOp_high : decodeCmd 0b0000000000000000000000000_000_1111#32 = .reservedOp 15 0 0 := by decide
theorem test_decode_rd : decodeBus ⟨.read, 32, 0x7C, 5⟩ = .ok (.rd 0x7C) := rfl
theorem test_decode_wrCtrl : decodeBus ⟨.write, 32, 0x04, 9⟩ = .ok (.wrCtrl 9) := rfl
theorem test_decode_wrStatus : decodeBus ⟨.write, 32, 0x08, 9⟩ = .ok (.wrStatus 9) := rfl
theorem test_decode_cmd : decodeBus ⟨.write, 32, 0x0C, 0x43⟩ = .ok (.cmd 0x43) := rfl
theorem test_decode_wrIv0 : decodeBus ⟨.write, 32, 0x10, 9⟩ = .ok (.wrIv0 9) := rfl
theorem test_decode_wrIv1 : decodeBus ⟨.write, 32, 0x14, 9⟩ = .ok (.wrIv1 9) := rfl
theorem test_decode_wrIv2 : decodeBus ⟨.write, 32, 0x18, 9⟩ = .ok (.wrIv2 9) := rfl
theorem test_decode_wrIv3 : decodeBus ⟨.write, 32, 0x1C, 9⟩ = .ok (.wrIv3 9) := rfl
theorem test_decode_wrDin : decodeBus ⟨.write, 32, 0x30, 9⟩ = .ok (.wrDin 9) := rfl
theorem test_decode_wrReadOnly_first : decodeBus ⟨.write, 32, 0x00, 9⟩ = .ok (.wrReadOnly 0x00 9) := rfl
theorem test_decode_wrReadOnly_last : decodeBus ⟨.write, 32, 0x4C, 9⟩ = .ok (.wrReadOnly 0x4C 9) := rfl
theorem test_decode_wrReserved_first : decodeBus ⟨.write, 32, 0x50, 9⟩ = .ok (.wrReserved 0x50 9) := rfl
theorem test_decode_wrReserved_last : decodeBus ⟨.write, 32, 0x7C, 9⟩ = .ok (.wrReserved 0x7C 9) := rfl
theorem test_decode_cmd_format : decode .cmd ⟨.write, 32, 0x0C, 0x43⟩ = .ok (.push 4 0) := rfl
theorem test_decode_rejects_width : decodeBus ⟨.read, 16, 0x08, 0⟩ = .error .notWord := rfl
theorem test_decode_rejects_outside : decodeBus ⟨.read, 32, 0x80, 0⟩ = .error .outsideWindow := rfl
theorem test_decode_rejects_misaligned : decodeBus ⟨.write, 32, 0x0E, 0⟩ = .error .misaligned := rfl
theorem test_decode_rejects_no_command : decode .cmd ⟨.write, 32, 0x30, 0x43⟩ = .error .noCommandWrite := rfl
theorem test_encode_pop : encode (.pop 2 0) = ⟨.write, 32, 0x0C, 0x25#32⟩ := by decide
theorem test_table_word_beyond : decodeTableWord 64 0 = none := by decide
theorem test_address_below_base : admission (accessAt 0x1000 0xFFC .read 32 0) = some .outsideWindow := by decide
theorem test_address_of_status : accessAt 0x1000 0x1008 .read 32 0 = busReadAt 0x08 := by decide

/-! ## Single steps, with the results of spec/95_test_vectors.md §3 -/

/-- V1. -/
theorem test_rd_id : goesTo (exec (.rd 0x00) State.reset) (fun t => t.rdata == some 0x0CBC0001#32) = true := by decide
/-- V5, IV2. -/
theorem test_rd_iv2 : goesTo (exec (.rd 0x18) ready) (fun t => t.rdata == some 0x0B0A0908#32) = true := by decide
/-- V2. -/
theorem test_wrCtrl : goesTo (exec (.wrCtrl 0xFFFFFFFF) State.reset)
    (fun t => busRead t 0x04 == 0x0000000F#32 && busRead t 0x08 == 0#32) = true := by decide
/-- V7. -/
theorem test_wrStatus_ack : goesTo (exec (.wrStatus 0x00080000) { encNow with cerr := .locked, cerrP := true })
    (fun t => busRead t 0x08 == 0x00010001#32) = true := by decide
/-- V8. -/
theorem test_wrStatus_other_bits : goesTo (exec (.wrStatus 0x0000FFFF) encNow)
    (fun t => busRead t 0x08 == 0x00010001#32) = true := by decide
/-- V3. -/
theorem test_wrIv0 : goesTo (exec (.wrIv0 0x03020100) State.reset)
    (fun t => busRead t 0x10 == 0x03020100#32 && t.iv[3] == 0x03#8 && busRead t 0x08 == 0x00001000#32) = true := by decide
/-- V6. -/
theorem test_wrIv1_locked : goesTo (exec (.wrIv1 0xFFFFFFFF) { encNow with iv := ivI })
    (fun t => busRead t 0x14 == 0x07060504#32 && busRead t 0x08 == 0x00090901#32) = true := by decide
theorem test_wrIv1 : goesTo (exec (.wrIv1 0x07060504) State.reset)
    (fun t => t.iv[4] == 0x04#8 && t.iv[7] == 0x07#8 && t.ivw == 0b0010#4) = true := by decide
theorem test_wrIv2 : goesTo (exec (.wrIv2 0x0B0A0908) State.reset)
    (fun t => t.iv[8] == 0x08#8 && t.ivw == 0b0100#4) = true := by decide
theorem test_wrIv3 : goesTo (exec (.wrIv3 0x0F0E0D0C) State.reset)
    (fun t => t.iv[15] == 0x0F#8 && t.ivw == 0b1000#4) = true := by decide
/-- V11. -/
theorem test_wrDin : goesTo (exec (.wrDin 0x73696874) State.reset)
    (fun t => busRead t 0x30 == 0x73696874#32) = true := by decide
/-- V10. -/
theorem test_wrReadOnly : goesTo (exec (.wrReadOnly 0x20 0xFFFFFFFF) State.reset) (fun t => t == State.reset) = true := by
  decide
/-- V10. -/
theorem test_wrReserved : goesTo (exec (.wrReserved 0x50 0x12345678) State.reset) (fun t => t == State.reset) = true := by
  decide
/-- V12, the acceptance. -/
theorem test_cmd_accepts : goesTo (exec (.cmd 0x13) { encNow with din := 0x41 })
    (fun t => busRead t 0x08 == 0x00010009#32 && t.pend == some ⟨.push, 1, 0x00000041⟩) = true := by decide
/-- V12, the refusal. -/
theorem test_cmd_busy : goesTo (exec (.cmd 0x00) (waiting encNow .push 1 0x41))
    (fun t => busRead t 0x08 == 0x00090109#32) = true := by decide
/-- V14, the last of its writes. -/
theorem test_reservedOp : goesTo (exec (.reservedOp 15 0 0) State.reset)
    (fun t => busRead t 0x08 == 0x00080200#32) = true := by decide
/-- V73. -/
theorem test_reservedOp_busy : goesTo (exec (.reservedOp 15 1 0) (waiting encNow .push 1 0x41))
    (fun t => t.cerr == .busy) = true := by decide
/-- V30. -/
theorem test_nop : goesTo (exec (.nop 0 0) (waiting { State.reset with ctrl := 1 } .nop 0 0))
    (fun t => busRead t 0x08 == 0x00110000#32) = true := by decide
/-- V22, NOP with N = 7 is accepted. -/
theorem test_nop_ignores_n : goesTo (exec (.nop 7 0) State.reset) (fun t => t.busy && t.cerr == .none) = true := by decide
/-- V31. -/
theorem test_initEnc : goesTo (exec (.initEnc 0 0) (waiting ready .initEnc 0 0))
    (fun t => busRead t 0x08 == 0x00010001#32 && busRead t 0x20 == 0x03020100#32) = true := by decide
/-- V17. -/
theorem test_initEnc_noIv : goesTo (exec (.initEnc 0 0) { State.reset with ivw := 0b0111#4 })
    (fun t => busRead t 0x08 == 0x00087500#32) = true := by decide
/-- V32. -/
theorem test_initDec : goesTo (exec (.initDec 0 0) (waiting ready .initDec 0 0))
    (fun t => busRead t 0x08 == 0x00010002#32 && busRead t 0x2C == 0x0F0E0D0C#32) = true := by decide
/-- V50. -/
theorem test_push : goesTo (exec (.push 4 0) (waiting encNow .push 4 0x64636261))
    (fun t => busRead t 0x38 == 0x00000400#32 && t.buf[3] == 0x64#8 && busRead t 0x40 == 4#32) = true := by decide
/-- V16. -/
theorem test_push_idle : goesTo (exec (.push 1 0) State.reset) (fun t => t.cerr == .badState) = true := by decide
/-- V51, with T-ID: the block crosses the PUSH. -/
theorem test_push_completes :
    let t := commandWait tId .push 4
      { encNow with
        din := 0x64636261, cnt := 14, inBytes := 14
        buf := blk [0x77, 0x78, 0x79, 0x7A, 0x77, 0x78, 0x79, 0x7A, 0x77, 0x78, 0x79, 0x7A, 0x31, 0x32] }
    (busRead t 0x38 == 0x00000210#32 && busRead t 0x2C == 0x62613231#32 && t.ofifo == t.chain.toList
      && t.buf[1] == 0x64#8 && busRead t 0x40 == 18#32) = true := by decide
/-- V46, with T-ROT: the sixteenth byte of the second block releases the first. -/
theorem test_push_decrypts :
    let t := commandWait tRot .push 1
      { decNow with
        din := 0x2F, cnt := 15, inBytes := 31, chain := blk (List.range' 0x10 16), hbv := true
        buf := blk (List.range' 0x20 15), hb := blk [0x1F, 0x11, 0x13] }
    (t.ofifo == (blk [0x1F, 0x11, 0x13]).toList && t.chain == blk (List.range' 0x20 16)
      && t.hb == blk [0x3F, 0x31, 0x33, 0x31, 0x37, 0x31, 0x33, 0x31, 0x3F, 0x31, 0x33, 0x31, 0x37, 0x31, 0x33, 0x31])
      = true := by decide
/-- V57, with T-ID. -/
theorem test_final_enc :
    let t := commandWait tId .final 0
      { encNow with cnt := 15, inBytes := 15, chain := ivI, buf := blk (List.range' 0x41 15) }
    (t.ofifo == (blk [0x41, 0x43, 0x41, 0x47, 0x41, 0x43, 0x41, 0x4F, 0x41, 0x43, 0x41, 0x47, 0x41, 0x43, 0x41, 0x0E]).toList
      && busRead t 0x08 == 0x00030003#32) = true := by decide
/-- V48.3: k = 5. -/
theorem test_final_dec : goesTo (exec (.final 0 0) (waiting { decNow with
      hbv := true, inBytes := 16
      hb := blk [0x41, 0x41, 0x41, 0x41, 0x41, 0x41, 0x41, 0x41, 0x41, 0x41, 0x41, 5, 5, 5, 5, 5] } .final 0 0))
    (fun t => t.ofifo == fifo41 11 && busRead t 0x08 == 0x00030003#32 && busRead t 0x48 == 11#32) = true := by decide
/-- V48.9. -/
theorem test_padOk_checks_every_byte :
    padOk (blk [0x41, 0x41, 0x41, 0x41, 0x41, 0x41, 0x41, 0x41, 0x41, 0x41, 0x41, 4, 5, 5, 5, 5]) = false := by decide
/-- V60. -/
theorem test_final_truncated : goesTo (exec (.final 0 0) (waiting { decNow with cnt := 1, hbv := true } .final 0 0))
    (fun t => busRead t 0x08 == 0x00050014#32 && busRead t 0x38 == 0#32) = true := by decide
/-- V55, the second pop. -/
theorem test_pop : goesTo (exec (.pop 1 0) (waiting { encNow with ofifo := 0x45#8 :: fifo41 11, dout := 0x44434241 } .pop 1 0))
    (fun t => busRead t 0x34 == 0x00000045#32 && t.ofifo == fifo41 11) = true := by decide
/-- V20. -/
theorem test_pop_short : goesTo (exec (.pop 4 0) { encNow with ofifo := fifo41 3 })
    (fun t => t.cerr == .outEmpty && t.ofifo == fifo41 3) = true := by decide
/-- V33. -/
theorem test_abort : goesTo (exec (.abort 0 0) (waiting { encNow with ofifo := fifo41 16, cnt := 2, chain := blk [0x41] } .abort 0 0))
    (fun t => busRead t 0x08 == 0x00050034#32 && busRead t 0x38 == 0#32 && t.chain == blk [0x41]) = true := by decide
/-- V34. -/
theorem test_clear : goesTo (exec (.clear 0 0) (waiting { State.reset with
      state := .error, err := .ioError, cmplP := true, errP := true, inBytes := 18 } .clear 0 0))
    (fun t => busRead t 0x08 == 0x00050000#32 && busRead t 0x40 == 18#32) = true := by decide
/-- V21. -/
theorem test_clear_notDrained : goesTo (exec (.clear 0 0) { encNow with state := .done, ofifo := fifo41 16 })
    (fun t => t.cerr == .notDrained && t.state == .done) = true := by decide
/-- V80. -/
theorem test_reset_discards_the_pending_command :
    goesTo (step { waiting { encNow with ctrl := 15, iv := ivI } .push 4 0 with inputs := [.reset] })
      (fun t => t == State.reset) = true := by decide
/-- The command word of an opcode-table row runs as the first step after reset. -/
theorem test_withFetchWord : goesTo (step (State.reset.withFetchWord 8 0x0A))
    (fun t => busRead t 0x08 == 0x00080200#32 && t.inputs == []) = true := by decide

/-! ## Witnesses: for each obligation with hypotheses, a state and operands that meet them together -/

/-- The invariant, checked. -/
def invHolds (s : State) : Bool :=
  decide (s.state = .idle → s.ofifo = [] ∧ s.cnt = 0 ∧ s.hbv = false) &&
  decide (s.state = .error → s.ofifo = [] ∧ s.cnt = 0 ∧ s.hbv = false ∧ s.err ≠ .none) &&
  decide (s.state ≠ .error → s.err = .none) && decide (s.state = .enc → s.hbv = false) &&
  decide (s.state = .done → s.cnt = 0 ∧ s.hbv = false) && decide (s.busy = s.pend.isSome) &&
  decide (s.ofifo.length ≤ Config.ofifoDepth) &&
  decide (s.state = .enc →
    s.cnt.val = s.inBytes.toNat % 16 ∧ s.outBytes.toNat = 16 * (s.inBytes.toNat / 16)) &&
  decide (s.state = .dec → s.cnt.val = s.inBytes.toNat % 16 ∧
    (s.hbv = false → s.inBytes.toNat < 16 ∧ s.outBytes = 0) ∧
    (s.hbv = true → s.outBytes.toNat = (16 * (s.inBytes.toNat / 16) + (2 ^ 64 - 16)) % 2 ^ 64)) &&
  s.pend.all (fun p => commandFault p.op p.n s == .none) && decide (s.state ≠ .idle → s.ivw = 0) &&
  decide (s.cerrP = true ↔ s.cerr ≠ .none)

theorem inv_of {s : State} (h : invHolds s = true) : StepInv s := by
  simp only [invHolds, Bool.and_eq_true, decide_eq_true_eq] at h
  obtain ⟨⟨⟨⟨⟨⟨⟨⟨⟨⟨⟨a, b⟩, c⟩, d⟩, e⟩, f⟩, g⟩, h1⟩, i⟩, j⟩, k⟩, l⟩ := h
  exact ⟨a, b, c, d, e, f, g, h1, i, fun p hp => by rw [hp] at j; simpa using j, k, l⟩

/-- An answer that is there and passes a check. -/
theorem some_of {α : Type} {o : Option α} (p : α → Bool) (h : o.any p = true) : ∃ x, o = some x ∧ p x = true := by
  cases o with
  | none => contradiction
  | some x => exact ⟨x, rfl, h⟩

/-- A step that goes on and passes a check. -/
theorem next_of {o : Host.Outcome State Fault Refusal} {p : State → Bool} (h : goesTo o p = true) :
    ∃ t, o = .next t ∧ p t = true := by
  cases o with
  | next t => exact ⟨t, rfl, h⟩
  | fault r => contradiction
  | refused r => contradiction

/-- The next ordered steps. -/
def ordered (s : State) (es : List Event) : State := { s with inputs := es }

theorem witness_DecodeInvertsEncode :
    (Instr.reservedOp 8 7 0x1FFFFFF#25).wellFormed = true ∧ (Instr.rd 0x7C).wellFormed = true ∧
    (Instr.wrReadOnly 0x4C 1).wellFormed = true ∧ (Instr.wrReserved 0x50 1).wellFormed = true := by decide

theorem witness_DecodedInstructionsAreWellFormed :
    decode .cmd (busWriteAt 0x0C 0xFFFFFFFF) = .ok (.reservedOp 15 7 0x1FFFFFF#25) ∧
    decode .bus (busReadAt 0x4C) = .ok (.rd 0x4C) := ⟨rfl, rfl⟩

/-- The first and the last offset of each list of offsets. -/
theorem witness_TableWordsDecode :
    0x00 ∈ [0x00, 0x20, 0x24, 0x28, 0x2C, 0x34, 0x38, 0x3C, 0x40, 0x44, 0x48, 0x4C] ∧
    0x4C ∈ [0x00, 0x20, 0x24, 0x28, 0x2C, 0x34, 0x38, 0x3C, 0x40, 0x44, 0x48, 0x4C] ∧
    (0x50 ≤ 0x50 ∧ 0x50 ≤ 0x7C ∧ 0x50 % 4 = 0) ∧ (0x50 ≤ 0x7C ∧ 0x7C ≤ 0x7C ∧ 0x7C % 4 = 0) ∧
    (0 ≤ 0x7C ∧ 0 % 4 = 0) := by decide

theorem witness_OnlyAdmittedAccessesAreTaken :
    HostIsNext (ordered encNow [.host ⟨.read, 32, 124, 0⟩]) ⟨.read, 32, 124, 0⟩ ∧
    HostIsNext (ordered encNow [.host ⟨.write, 32, 128, 0⟩]) ⟨.write, 32, 128, 0⟩ ∧
    HostIsNext (ordered encNow [.host ⟨.write, 8, 12, 0⟩]) ⟨.write, 8, 12, 0⟩ ∧
    HostIsNext (ordered encNow [.host ⟨.read, 32, 2, 0⟩]) ⟨.read, 32, 2, 0⟩ :=
  ⟨⟨_, rfl⟩, ⟨_, rfl⟩, ⟨_, rfl⟩, ⟨_, rfl⟩⟩

theorem witness_CountIsReadByPushAndPopOnly :
    Command.nop ≠ .push ∧ Command.nop ≠ .pop ∧ State.reset.busy = false ∧
    cmdOp 0x03 = 3 ∧ cmdN 0x03 = 0 ∧ cmdOp 0x55 = 5 ∧ 5 ≤ (cmdN 0x55).toNat ∧ 5 ≤ (cmdN 0x73).toNat := by decide

theorem witness_ReadHasNoSideEffect : (0x00 : BitVec 7).toNat % 4 = 0 ∧ (0x7C : BitVec 7).toNat % 4 = 0 := by decide

theorem witness_LevelWordShowsItsFields : ({ encNow with ofifo := fifo41 32 } : State).ofifo.length ≤ 32 := by decide

theorem witness_OtherRegistersReadAsMapped : 0x50 ≤ 0x50 ∧ 0x50 ≤ 0x7C := by decide

theorem witness_IgnoredWritesChangeNothing :
    (0x00 : BitVec 7).toNat ∈ [0x00, 0x20, 0x24, 0x28, 0x2C, 0x34, 0x38, 0x3C, 0x40, 0x44, 0x48, 0x4C] ∧
    (0x4C : BitVec 7).toNat ∈ [0x00, 0x20, 0x24, 0x28, 0x2C, 0x34, 0x38, 0x3C, 0x40, 0x44, 0x48, 0x4C] ∧
    0x50 ≤ (0x50 : BitVec 7).toNat ∧ (0x50 : BitVec 7).toNat % 4 = 0 ∧
    0x50 ≤ (0x7C : BitVec 7).toNat ∧ (0x7C : BitVec 7).toNat % 4 = 0 := by decide

theorem witness_IvWriteStoresOrIsLocked :
    ((3 : Fin 4), Instr.wrIv3 1) ∈ [((0 : Fin 4), Instr.wrIv0 1), (1, .wrIv1 1), (2, .wrIv2 1), (3, .wrIv3 1)] ∧
    (State.reset.busy = false ∧ State.reset.state = .idle) ∧ (waiting ready .nop 0 0).busy = true ∧
    encNow.state ≠ .idle := by decide

/-- A state and a count for each command's conditions, at the boundary of those that have one. -/
theorem witness_AcceptedCommandIsLatched :
    (commandOf (cmdOp 0x00) = some .nop ∧ State.reset.busy = false ∧ AcceptedWhen .nop (cmdN 0x00) State.reset) ∧
    (commandOf (cmdOp 0x01) = some .initEnc ∧ ready.busy = false ∧ AcceptedWhen .initEnc (cmdN 0x01) ready) ∧
    (commandOf (cmdOp 0x02) = some .initDec ∧ ready.busy = false ∧ AcceptedWhen .initDec (cmdN 0x02) ready) ∧
    (commandOf (cmdOp 0x43) = some .push ∧ encNow.busy = false ∧
      AcceptedWhen .push (cmdN 0x43) { encNow with cnt := 12, ofifo := fifo41 16 }) ∧
    (commandOf (cmdOp 0x13) = some .push ∧ decNow.busy = false ∧
      AcceptedWhen .push (cmdN 0x13) { decNow with cnt := 15, ofifo := fifo41 32 }) ∧
    (commandOf (cmdOp 0x04) = some .final ∧ decNow.busy = false ∧
      AcceptedWhen .final (cmdN 0x04) { decNow with ofifo := fifo41 16 }) ∧
    (commandOf (cmdOp 0x45) = some .pop ∧ encNow.busy = false ∧
      AcceptedWhen .pop (cmdN 0x45) { encNow with ofifo := fifo41 4 }) ∧
    (commandOf (cmdOp 0x06) = some .abort ∧ encNow.busy = false ∧ AcceptedWhen .abort (cmdN 0x06) encNow) ∧
    (commandOf (cmdOp 0x07) = some .clear ∧ encNow.busy = false ∧
      AcceptedWhen .clear (cmdN 0x07) { encNow with state := .done }) := by
  unfold AcceptedWhen
  decide

/-- The checks of `failedChecks` as Booleans. -/
def failedBits (op : BitVec 4) (n : BitVec 3) (s : State) : List Bool :=
  [ decide (s.busy = true),
    decide (8 ≤ op.toNat),
    decide ((op = 3 ∨ op = 5) ∧ ¬(1 ≤ n.toNat ∧ n.toNat ≤ 4)),
    decide ((op = 1 ∨ op = 2) ∧ s.state ≠ .idle ∨
      (op = 3 ∨ op = 4) ∧ s.state ≠ .enc ∧ s.state ≠ .dec ∨
      op = 6 ∧ (s.state = .idle ∨ s.state = .error) ∨
      op = 7 ∧ (s.state = .enc ∨ s.state = .dec)),
    decide ((op = 1 ∨ op = 2) ∧ s.ivw ≠ 0b1111#4),
    decide (op = 3 ∧ 16 ≤ s.cnt.val + n.toNat ∧
        32 < s.ofifo.length + (if s.state = .enc ∨ s.hbv = true then 16 else 0) ∨
      op = 4 ∧ 16 < s.ofifo.length),
    decide (op = 5 ∧ s.ofifo.length < n.toNat),
    decide (op = 7 ∧ s.state = .done ∧ s.ofifo ≠ []) ]

theorem failedBits_iff (op : BitVec 4) (n : BitVec 3) (s : State) (k : Fin 8) :
    ((failedChecks op n s)[k]).1 ↔ (failedBits op n s)[k]'k.isLt = true := by
  fin_cases k <;> simp [failedChecks, failedBits]
  omega

/-- For each check of R105, a word and a state in which it is the first that fails. -/
theorem witness_FirstFailingCheckRefuses :
    ∀ k : Fin 8, ∃ (w : Word) (s : State), (∀ j : Fin 8, j < k → ¬((failedChecks (cmdOp w) (cmdN w) s)[j]).1) ∧
      ((failedChecks (cmdOp w) (cmdN w) s)[k]).1 := by
  simp only [failedBits_iff]
  intro k
  match k with
  | 0 => exact ⟨0x0F, waiting encNow .push 1 0, by decide⟩
  | 1 => exact ⟨0x08, State.reset, by decide⟩
  | 2 => exact ⟨0x03, State.reset, by decide⟩
  | 3 => exact ⟨0x13, State.reset, by decide⟩
  | 4 => exact ⟨0x01, State.reset, by decide⟩
  | 5 => exact ⟨0x04, { encNow with ofifo := fifo41 17 }, by decide⟩
  | 6 => exact ⟨0x15, State.reset, by decide⟩
  | 7 => exact ⟨0x07, { encNow with state := .done, ofifo := fifo41 1 }, by decide⟩

theorem witness_CommandRowNotPendingIsItsWrite :
    ¬∃ c d, Awaits encNow c (cmdN 0x43) d ∧ opCode c = cmdOp 0x43 := by
  rintro ⟨c, d, ⟨h, -⟩, -⟩; contradiction

theorem witness_ReservedOpcodeIsRefused :
    8 ≤ (8 : BitVec 4).toNat ∧ 8 ≤ (15 : BitVec 4).toNat ∧ encNow.busy = false ∧
    (waiting encNow .push 1 0).busy = true := by decide

theorem witness_NopCompletes : Awaits (waiting State.reset .nop 7 0) .nop 7 0 := ⟨rfl, rfl⟩

theorem witness_InitStartsAnOperation :
    (Instr.initEnc 0 0, Command.initEnc, OpState.enc) ∈
      [(Instr.initEnc 0 0, Command.initEnc, OpState.enc), (.initDec 0 0, .initDec, .dec)] ∧
    (Instr.initDec 0 0, Command.initDec, OpState.dec) ∈
      [(Instr.initEnc 0 0, Command.initEnc, OpState.enc), (.initDec 0 0, .initDec, .dec)] ∧
    Awaits (waiting ready .initEnc 0 0) .initEnc 0 0 ∧ Awaits (waiting ready .initDec 0 0) .initDec 0 0 :=
  ⟨by decide, by decide, ⟨rfl, rfl⟩, ⟨rfl, rfl⟩⟩

theorem witness_PushWithinABlockGathers :
    Awaits (waiting { encNow with cnt := 11 } .push 4 0x64636261) .push 4 0x64636261 ∧ 11 + (4 : BitVec 3).toNat < 16 ∧
    Awaits (waiting decNow .push 1 0x61) .push 1 0x61 ∧ 0 + (1 : BitVec 3).toNat < 16 :=
  ⟨⟨rfl, rfl⟩, by decide, ⟨rfl, rfl⟩, by decide⟩

/-- CNT = 12 with N = 4, which fills the block exactly, and CNT = 15 with N = 4, which leaves three bytes. -/
theorem witness_PushCompletingABlockEncrypts :
    (Awaits (waiting { encNow with cnt := 12 } .push 4 0x64636261) .push 4 0x64636261 ∧ encNow.state = .enc ∧
      16 ≤ 12 + (4 : BitVec 3).toNat ∧
      Gathers { encNow with cnt := 12 } 0x64636261 (blk [0, 0, 0, 0, 0, 0, 0, 0, 0, 0, 0, 0, 0x61, 0x62, 0x63, 0x64])) ∧
    (Awaits (waiting { encNow with cnt := 15 } .push 4 0x64636261) .push 4 0x64636261 ∧
      16 ≤ 15 + (4 : BitVec 3).toNat ∧
      Gathers { encNow with cnt := 15 } 0x64636261 (blk [0, 0, 0, 0, 0, 0, 0, 0, 0, 0, 0, 0, 0, 0, 0, 0x61])) :=
  ⟨⟨⟨rfl, rfl⟩, rfl, by decide, by unfold Gathers; decide⟩, ⟨rfl, rfl⟩, by decide, by unfold Gathers; decide⟩

/-- The first block of an operation, and a later one. -/
theorem witness_PushCompletingABlockDecrypts :
    Awaits (waiting { decNow with cnt := 15 } .push 1 0x61) .push 1 0x61 ∧
    Awaits (waiting { decNow with cnt := 15, hbv := true } .push 1 0x61) .push 1 0x61 ∧
    decNow.state = .dec ∧ 16 ≤ 15 + (1 : BitVec 3).toNat ∧
    Gathers { decNow with cnt := 15 } 0x61 (blk [0, 0, 0, 0, 0, 0, 0, 0, 0, 0, 0, 0, 0, 0, 0, 0x61]) :=
  ⟨⟨rfl, rfl⟩, ⟨rfl, rfl⟩, rfl, by decide, by unfold Gathers; decide⟩

/-- CNT = 0 and CNT = 15. -/
theorem witness_FinalInEncPadsAndEncrypts :
    (Awaits (waiting encNow .final 0 0) .final 0 0 ∧ encNow.state = .enc ∧
      ∀ k : Fin 16, (blk (List.replicate 16 16))[k] =
        if k < encNow.cnt then encNow.buf[k] else BitVec.ofNat 8 (16 - encNow.cnt.val)) ∧
    (Awaits (waiting { encNow with cnt := 15 } .final 0 0) .final 0 0 ∧
      ∀ k : Fin 16, (blk [0, 0, 0, 0, 0, 0, 0, 0, 0, 0, 0, 0, 0, 0, 0, 1])[k] =
        if k < ({ encNow with cnt := 15 } : State).cnt then encNow.buf[k] else BitVec.ofNat 8 (16 - 15)) :=
  ⟨⟨⟨rfl, rfl⟩, rfl, by decide⟩, ⟨rfl, rfl⟩, by decide⟩

/-- Each of the four ends of a FINAL in DEC; the padding 10 x16 and 01 are the longest and the shortest. -/
theorem witness_FinalInDecChecksAndStrips :
    Awaits (waiting decNow .final 0 0) .final 0 0 ∧ decNow.state = .dec ∧
    ({ decNow with cnt := 15, hbv := true } : State).cnt ≠ 0 ∧ (decNow.cnt = 0 ∧ decNow.hbv = false) ∧
    ¬PadValid (blk []) ∧ ¬PadValid (blk (List.replicate 16 17)) ∧
    PadValid (blk (List.replicate 16 16)) ∧ PadValid (blk [0, 0, 0, 0, 0, 0, 0, 0, 0, 0, 0, 0, 0, 0, 0, 1]) :=
  ⟨⟨rfl, rfl⟩, rfl, by decide, by decide, by unfold PadValid; decide, by unfold PadValid; decide,
    by unfold PadValid; decide, by unfold PadValid; decide⟩

/-- N = 1, and N = 4 with just four bytes held. -/
theorem witness_PopShowsTheOldestBytes :
    (Awaits (waiting { encNow with ofifo := fifo41 32 } .pop 1 0) .pop 1 0 ∧ 1 ≤ (1 : BitVec 3).toNat ∧
      (1 : BitVec 3).toNat ≤ (fifo41 32).length) ∧
    (Awaits (waiting { encNow with ofifo := fifo41 4 } .pop 4 0) .pop 4 0 ∧ (4 : BitVec 3).toNat ≤ 4 ∧
      (4 : BitVec 3).toNat ≤ (fifo41 4).length) :=
  ⟨⟨⟨rfl, rfl⟩, by decide, by decide⟩, ⟨rfl, rfl⟩, by decide, by decide⟩

theorem witness_AbortEndsInError : Awaits (waiting decNow .abort 0 0) .abort 0 0 := ⟨rfl, rfl⟩

theorem witness_ClearReturnsToIdle :
    Awaits (waiting { State.reset with state := .error, err := .badPadding } .clear 0 0) .clear 0 0 := ⟨rfl, rfl⟩

theorem witness_StepRunsTheHostsInstruction :
    (ordered encNow [.host (busWriteAt 0x30 5), .completion]).inputs = .host (busWriteAt 0x30 5) :: [.completion] ∧
    decodeBus (busWriteAt 0x30 5) = .ok (.wrDin 5) := ⟨rfl, rfl⟩

theorem witness_StepCompletesThePendingCommand :
    (waiting encNow .push 4 1).pend = some ⟨.push, 4, 1⟩ ∧ CompletionIsNext (waiting encNow .push 4 1) ∧
    CompletionIsNext (ordered (waiting encNow .push 4 1) [.completion, .reset]) :=
  ⟨rfl, ⟨rfl, .inl rfl⟩, rfl, .inr ⟨_, rfl⟩⟩

theorem witness_ResetStepRestoresTheRecord :
    (ordered (waiting encNow .push 4 1) [.reset, .completion]).inputs = .reset :: [.completion] := rfl

theorem witness_WithoutACommandNothingHappens :
    encNow.busy = false ∧ encNow.inputs = [] ∧ ∃ rest, (ordered encNow [.completion]).inputs = .completion :: rest :=
  ⟨rfl, rfl, _, rfl⟩

theorem witness_TwoStepsAreACommandWithWait :
    commandOf (cmdOp 0x13) = some .push ∧
    (ordered encNow [.host (busWriteAt 0x0C 0x13), .completion]).inputs =
      .host (busWriteAt 0x0C 0x13) :: .completion :: [] ∧
    accepts .push (cmdN 0x13) (ordered encNow [.host (busWriteAt 0x0C 0x13), .completion]) = true := by decide

/-- INIT_DEC is pending, with a read and the completion ordered. -/
def initPending : State := ordered (waiting ready .initDec 0 0) [.host (busReadAt 0x08), .completion]

/-- INIT_DEC is pending, and its completion is next. -/
def initDue : State := ordered initPending []

theorem witness_EveryStepKeepsTheInvariant : StepInv initDue ∧ ∃ t, step initDue = .next t ∧ (t.state == .dec) = true :=
  ⟨inv_of (by decide), next_of (by decide)⟩

theorem witness_AdmittedRunsNeverStop : StepInv initPending ∧ Admitted initPending.inputs := by
  refine ⟨inv_of (by decide), fun a h => ?_⟩
  simp only [initPending, ordered, List.mem_cons, Event.host.injEq, List.not_mem_nil, or_false, reduceCtorEq] at h
  subst h; decide

theorem witness_StateChangesFollowTheTable :
    StepInv initDue ∧ ∃ t, step initDue = .next t ∧ (t.state != initDue.state) = true :=
  ⟨inv_of (by decide), next_of (by decide)⟩

theorem witness_HostAccessesWhileBusyKeepTheOperation :
    (ordered initPending [.host (busWriteAt 0x10 7)]).busy = true ∧
    HostIsNext (ordered initPending [.host (busWriteAt 0x10 7)]) (busWriteAt 0x10 7) ∧
    ∃ t, step (ordered initPending [.host (busWriteAt 0x10 7)]) = .next t ∧ (t.cerr == .locked) = true :=
  ⟨rfl, ⟨_, rfl⟩, next_of (by decide)⟩

theorem witness_PendingBitsAreSticky :
    (∃ t, step (ordered encNow [.host (busWriteAt 0x08 0x00010000)]) = .next t ∧ (!t.cmplP) = true) ∧
    ¬ResetIsNext (ordered encNow [.host (busWriteAt 0x08 0x00010000)]) ∧ encNow.cmplP = true := by
  refine ⟨next_of (by decide), ?_, rfl⟩
  rintro ⟨rest, h⟩; simp [ordered] at h

/-- A completion into DEC, one into ERROR, one into DONE, and a refusal. -/
theorem witness_PendingBitsAreSetByTheirEvents :
    (StepInv initDue ∧ CompletionIsNext initDue ∧ ∃ t, step initDue = .next t ∧ t.cmplP = true) ∧
    (StepInv (waiting decNow .final 0 0) ∧ CompletionIsNext (waiting decNow .final 0 0) ∧
      ∃ t, step (waiting decNow .final 0 0) = .next t ∧ (t.state == .error) = true) ∧
    (StepInv (waiting { decNow with hbv := true, inBytes := 16, hb := blk (List.replicate 16 16) } .final 0 0) ∧
      ∃ t, step (waiting { decNow with hbv := true, inBytes := 16, hb := blk (List.replicate 16 16) } .final 0 0) = .next t ∧
        (t.state == .done) = true) ∧
    (StepInv (ordered encNow [.host (busWriteAt 0x0C 0x0F)]) ∧
      ∃ t, step (ordered encNow [.host (busWriteAt 0x0C 0x0F)]) = .next t ∧ t.cerrP = true) :=
  ⟨⟨inv_of (by decide), ⟨rfl, .inl rfl⟩, next_of (by decide)⟩,
   ⟨inv_of (by decide), ⟨rfl, .inl rfl⟩, next_of (by decide)⟩,
   ⟨inv_of (by decide), next_of (by decide)⟩, inv_of (by decide), next_of (by decide)⟩

theorem witness_OnlyPopAndResetChangeDout :
    ∃ t, step (waiting { encNow with ofifo := fifo41 4 } .pop 4 0) = .next t ∧ (t.dout != encNow.dout) = true :=
  next_of (by decide)

theorem witness_IvIsLockedDuringAnOperation :
    ∃ t, step (ordered ready [.host (busWriteAt 0x1C 7)]) = .next t ∧ (t.iv != ready.iv) = true := next_of (by decide)

/-- In ERROR: a refused ABORT. -/
theorem witness_ErrorsDoNotNest :
    StepInv (ordered { State.reset with state := .error, err := .ioError } [.host (busWriteAt 0x0C 6)]) ∧
    ∃ t, step (ordered { State.reset with state := .error, err := .ioError } [.host (busWriteAt 0x0C 6)]) = .next t ∧
      (t.state == .error && t.cerr == .badState) = true := ⟨inv_of (by decide), next_of (by decide)⟩

theorem witness_PendingCommandCompletes : StepInv initPending ∧ initPending.busy = true ∧ Admitted initPending.inputs :=
  ⟨witness_AdmittedRunsNeverStop.1, rfl, witness_AdmittedRunsNeverStop.2⟩

/-- Two machines with different pasts. -/
theorem witness_OperationsDoNotShareState :
    (Command.initEnc, Instr.initEnc 0 0, Instr.initEnc 1 1) ∈
      [(Command.initEnc, Instr.initEnc 0 0, Instr.initEnc 1 1), (.initDec, .initDec 0 0, .initDec 1 1)] ∧
    StepInv (waiting ready .initEnc 0 0) ∧ Awaits (waiting ready .initEnc 0 0) .initEnc 0 0 ∧
    StepInv (waiting { ready with chain := ivI, inBytes := 5, din := 9 } .initEnc 1 9) ∧
    Awaits (waiting { ready with chain := ivI, inBytes := 5, din := 9 } .initEnc 1 9) .initEnc 1 9 ∧
    (∃ t, exec (.initEnc 0 0) (waiting ready .initEnc 0 0) = .next t) ∧
    (∃ t, exec (.initEnc 1 1) (waiting { ready with chain := ivI, inBytes := 5, din := 9 } .initEnc 1 9) = .next t) :=
  ⟨by decide, inv_of (by decide), ⟨rfl, rfl⟩, inv_of (by decide), ⟨rfl, rfl⟩, ⟨_, rfl⟩, _, rfl⟩

theorem witness_AbortThenClearResembleReset :
    StepInv { decNow with hbv := true, inBytes := 17, cnt := 1 } ∧ decNow.busy = false ∧ decNow.state = .dec :=
  ⟨inv_of (by decide), rfl, rfl⟩

theorem witness_DrainingCannotDeadlock :
    encNow.busy = false ∧ 16 < (fifo41 17).length ∧ (fifo41 16).length ≤ 16 ∧ encNow.state = .enc ∧
    1 ≤ (4 : BitVec 3).toNat ∧ (4 : BitVec 3).toNat ≤ 4 := by decide

theorem tRot_inverse : tRot.Inverse := by
  intro x
  refine Vector.ext fun i h => ?_
  simp only [tRot, Vector.getElem_ofFn]
  congr 1
  omega

theorem witness_GroupingOfPushesIsImmaterial :
    (inputOf ([(3, 0x636261)].map fun x : BitVec 3 × Word => .push x.1 x.2) =
      inputOf ([(1, 0xFF61), (2, 0x6362)].map fun x : BitVec 3 × Word => .push x.1 x.2)) ∧
    (∃ r, runActs tRot ([(3, 0x636261)].map fun x : BitVec 3 × Word => .push x.1 x.2) encNow = some r ∧
      r.2.isEmpty = true) ∧
    (∃ r, runActs tRot ([(1, 0xFF61), (2, 0x6362)].map fun x : BitVec 3 × Word => .push x.1 x.2) encNow = some r ∧
      r.2.isEmpty = true) :=
  ⟨by decide, some_of _ (by decide), some_of _ (by decide)⟩

/-- "abc", encrypted with T-ROT under the IV I. -/
def actsAbc : List Act := [.push 3 0x00636261]

/-- Its ciphertext, pushed for a decryption. -/
def actsCt : List Act := [.push 4 0x090E6163#32, .push 4 0x050A0B08#32, .push 4 0x01060704#32, .push 4 0x61020300#32]

theorem witness_EncryptOperationComputesCbc :
    StepInv ready ∧ ReadyForInit ready ∧ ∃ r, runOperation tRot .initEnc actsAbc [4, 4, 4, 4] ready = some r ∧
      (r.1.ofifo.isEmpty && r.1.state == .done) = true :=
  ⟨inv_of (by decide), ⟨rfl, rfl, rfl, rfl⟩, some_of _ (by decide)⟩

theorem witness_LengthsAtDone :
    (inputOf actsAbc).length < 2 ^ 64 - 16 ∧ (inputOf actsCt).length < 2 ^ 64 - 16 ∧
    (∃ r, runOperation tRot .initEnc actsAbc [] ready = some r ∧ (r.1.outBytes == 16#64) = true) ∧
    (∃ r, runOperation tRot .initDec actsCt [] ready = some r ∧ (r.1.state == .done && r.1.outBytes == 3#64) = true) :=
  ⟨by decide, by decide, some_of _ (by decide), some_of _ (by decide)⟩

theorem witness_TruncatedCiphertextEndsInError :
    (inputOf (actsCt ++ [.push 1 0])).length % 16 ≠ 0 ∧
    ∃ r, runOperation tRot .initDec (actsCt ++ [.push 1 0]) [] ready = some r ∧ (r.1.state == .error) = true :=
  ⟨by decide, some_of _ (by decide)⟩

/-- "abc" encrypted and popped in uneven groups, and given back by the decryption of those bytes. -/
theorem witness_RoundTripRestoresThePlaintext :
    tRot.Inverse ∧ StepInv ready ∧ ReadyForInit ready ∧
    (∃ r, runOperation tRot .initEnc actsAbc [3, 4, 4, 4, 1] ready = some r ∧
      (r.1.ofifo.isEmpty && r.2 == inputOf actsCt) = true) ∧
    (∃ r, runOperation tRot .initDec actsCt [3] ready = some r ∧
      (r.1.ofifo.isEmpty && r.1.state == .done && r.2 == [0x61#8, 0x62#8, 0x63#8]) = true) :=
  ⟨tRot_inverse, inv_of (by decide), ⟨rfl, rfl, rfl, rfl⟩, some_of _ (by decide), some_of _ (by decide)⟩

/-- Bytes pushed one at a time. -/
def pushEach (l : List Byte) : List Act := l.map fun b => .push 1 (b.setWidth 32)

/-- "abc" with its padding. -/
def lastAbc : Block := blk [0x61, 0x62, 0x63, 13, 13, 13, 13, 13, 13, 13, 13, 13, 13, 13, 13, 13]

/-- The two blocks I and "abc", encrypted with T-ROT under the IV I, as pushes of one byte. -/
def actsTwoBlocks : List Act := pushEach (bytesOf (cbcEncrypt tRot ivI [ivI, lastAbc]))

theorem witness_CbcDecryptionInvertsEncryption :
    tRot.Inverse ∧ StepInv ready ∧ ReadyForInit ready ∧ PadValid lastAbc ∧
    inputOf actsTwoBlocks = bytesOf (cbcEncrypt tRot ready.iv ([ivI] ++ [lastAbc])) ∧
    ∃ r, runOperation tRot .initDec actsTwoBlocks [4, 4, 4, 4, 3] ready = some r ∧ r.1.ofifo.isEmpty = true :=
  ⟨tRot_inverse, inv_of (by decide), ⟨rfl, rfl, rfl, rfl⟩, by unfold PadValid; decide, by decide, some_of _ (by decide)⟩

/-- An operation that is DONE and drained, one of a whole block that is not, and one without input. -/
theorem witness_DecryptOperationComputesCbc :
    StepInv ready ∧ ReadyForInit ready ∧
    (∃ r, runOperation tRot .initDec actsTwoBlocks [4, 4, 4, 4, 3] ready = some r ∧
      (r.1.state == .done && r.1.ofifo.isEmpty) = true) ∧
    (inputOf (pushEach (List.replicate 16 0))).length % 16 = 0 ∧
    (∃ r, runOperation tRot .initDec (pushEach (List.replicate 16 0)) [] ready = some r ∧ (r.1.state != .done) = true) ∧
    (inputOf []).length % 16 = 0 ∧
    (∃ r, runOperation tRot .initDec [] [] ready = some r ∧ (r.1.state != .done) = true) :=
  ⟨inv_of (by decide), ⟨rfl, rfl, rfl, rfl⟩, some_of _ (by decide), by decide, some_of _ (by decide), by decide,
    some_of _ (by decide)⟩

end Sys2Proof.Tests
end

section
/-! PROOFS. The scope of the machine (spec/00_scope.md): a step runs the host's next bus operation, and an operation
starts from the IV alone. -/

namespace Sys2Proof.Proofs.Scope

open Sys2Proof Sys2Proof.Machine Sys2Proof.Claims

/-! ## The host's step -/

/-- Settles O33: it is the law `step_host`, with `withInputs` written out. -/
theorem stepRunsTheHostsInstruction : Obligations.StepRunsTheHostsInstruction :=
  fun _ _ _ _ hinputs hdecode => step_host hinputs hdecode

/-! ## The start of an operation -/

/-- The row INIT_ENC completes the pending INIT_ENC, whatever its RSVD bits. -/
theorem exec_initEnc_pending {s : State} {n : BitVec 3} {d : Word} (h : Awaits s .initEnc n d) (r : BitVec 25) :
    exec (.initEnc n r) s = .next (finish (initOp .enc s)) :=
  congrArg Host.Outcome.next (commandStep_pending (fun _ => initOp .enc) h.1 h.2)

/-- The row INIT_DEC completes the pending INIT_DEC, whatever its RSVD bits. -/
theorem exec_initDec_pending {s : State} {n : BitVec 3} {d : Word} (h : Awaits s .initDec n d) (r : BitVec 25) :
    exec (.initDec n r) s = .next (finish (initOp .dec s)) :=
  congrArg Host.Outcome.next (commandStep_pending (fun _ => initOp .dec) h.1 h.2)

/-- InitOp does not touch the output FIFO, but an INIT is pending in IDLE only (R105), where the FIFO is empty
(R49 (a)). -/
theorem ofifo_nil_of_pending_init {s : State} {c : Command} {n : BitVec 3} {d : Word}
    (hc : c = .initEnc ∨ c = .initDec) (hinv : StepInv s) (h : Awaits s c n d) : s.ofifo = [] := by
  obtain ⟨hidle, -⟩ := accepted_init hc (hinv.stillLegal _ h.2)
  obtain ⟨hempty, -, -⟩ := hinv.idle hidle
  exact hempty

/-- t, with what the host's side of the window keeps over an INIT taken from u: DOUT, DIN, CTRL, the pending bits, CERR
and the model's own two fields. -/
def withHostSideOf (u t : State) : State :=
  { t with
    dout := u.dout, din := u.din, ctrl := u.ctrl, cmplP := u.cmplP, doneP := u.doneP, errP := u.errP,
    cerrP := u.cerrP, cerr := u.cerr, rdata := u.rdata, inputs := u.inputs }

/-- Beside the host's side, a completed INIT reads IV and the output FIFO of the state before, and nothing else (R134). -/
theorem finish_initOp_congr (m : OpState) {s s' : State} (hiv : s.iv = s'.iv) (hfifo : s.ofifo = s'.ofifo) :
    withHostSideOf (finish (initOp m s)) (finish (initOp m s')) = finish (initOp m s) := by
  simp only [withHostSideOf, finish, initOp, hiv, hfifo]

/-- Settles O49: each INIT completes to InitOp, which keeps IV and the FIFO of what it overwrites; the IVs agree, and
both FIFOs are empty by the invariant. -/
theorem operationsDoNotShareState : Obligations.OperationsDoNotShareState := by
  intro s s' t t' c n n' d d' r r' i i' hrow hinv hinv' hw hw' hiv ht ht'
  simp only [List.mem_cons, Prod.mk.injEq, List.not_mem_nil, or_false] at hrow
  have hc : c = .initEnc ∨ c = .initDec := hrow.imp And.left And.left
  have hfifo : s.ofifo = s'.ofifo :=
    (ofifo_nil_of_pending_init hc hinv hw).trans (ofifo_nil_of_pending_init hc hinv' hw').symm
  change withHostSideOf t t' = t
  obtain ⟨rfl, rfl, rfl⟩ | ⟨rfl, rfl, rfl⟩ := hrow
  · rw [exec_initEnc_pending hw] at ht
    rw [exec_initEnc_pending hw'] at ht'
    cases ht; cases ht'
    exact finish_initOp_congr .enc hiv hfifo
  · rw [exec_initDec_pending hw] at ht
    rw [exec_initDec_pending hw'] at ht'
    cases ht; cases ht'
    exact finish_initOp_congr .dec hiv hfifo

end Sys2Proof.Proofs.Scope
end

section
/-! PROOFS. The architectural state (spec/10_state.md): the invariant of R49 is kept by every step, STATE, DOUT and the
pending bits change by their own events only, and the registers read as the map says. -/

namespace Sys2Proof.Proofs.ArchState

open Sys2Proof Sys2Proof.Machine Sys2Proof.Claims

/-! ## The invariant, split: the operation's part, and the command's part -/

/-- The clauses of `StepInv` that speak of the operation alone: they hold between a completion's effect and its end as
well, when PEND still names a command whose checks are no longer of interest. -/
structure OperationInv (s : State) : Prop where
  idle : s.state = .idle → s.ofifo = [] ∧ s.cnt = 0 ∧ s.hbv = false
  error : s.state = .error → s.ofifo = [] ∧ s.cnt = 0 ∧ s.hbv = false ∧ s.err ≠ .none
  noErr : s.state ≠ .error → s.err = .none
  enc : s.state = .enc → s.hbv = false
  done : s.state = .done → s.cnt = 0 ∧ s.hbv = false
  room : s.ofifo.length ≤ Config.ofifoDepth
  encCount : s.state = .enc →
    s.cnt.val = s.inBytes.toNat % 16 ∧ s.outBytes.toNat = 16 * (s.inBytes.toNat / 16)
  decCount : s.state = .dec →
    s.cnt.val = s.inBytes.toNat % 16 ∧
    (s.hbv = false → s.inBytes.toNat < 16 ∧ s.outBytes = 0) ∧
    (s.hbv = true → s.outBytes.toNat = (16 * (s.inBytes.toNat / 16) + (2 ^ 64 - 16)) % 2 ^ 64)
  ivw : s.state ≠ .idle → s.ivw = 0

/-- The invariant is the operation's part with the command's: PEND, its checks, and CERR. -/
theorem stepInv_iff {s : State} : StepInv s ↔
    OperationInv s ∧ s.busy = s.pend.isSome ∧ (∀ p, s.pend = some p → commandFault p.op p.n s = .none) ∧
      (s.cerrP = true ↔ s.cerr ≠ .none) := by
  constructor
  · rintro ⟨idle, error, noErr, enc, done, pending, room, encCount, decCount, stillLegal, ivw, cerr⟩
    exact ⟨⟨idle, error, noErr, enc, done, room, encCount, decCount, ivw⟩, pending, stillLegal, cerr⟩
  · rintro ⟨⟨idle, error, noErr, enc, done, room, encCount, decCount, ivw⟩, pending, stillLegal, cerr⟩
    exact ⟨idle, error, noErr, enc, done, pending, room, encCount, decCount, stillLegal, ivw, cerr⟩

/-! What the operation's part says in each STATE. -/

theorem operationInv_idle {s : State} (hs : s.state = .idle) :
    OperationInv s ↔ s.ofifo = [] ∧ s.cnt = 0 ∧ s.hbv = false ∧ s.err = .none := by
  constructor
  · intro h
    obtain ⟨hempty, hcnt, hhbv⟩ := h.idle hs
    exact ⟨hempty, hcnt, hhbv, h.noErr (by simp [hs])⟩
  · rintro ⟨hempty, hcnt, hhbv, herr⟩
    constructor <;> simp [hs, hempty, hcnt, hhbv, herr]

theorem operationInv_enc {s : State} (hs : s.state = .enc) :
    OperationInv s ↔ s.hbv = false ∧ s.err = .none ∧ s.ivw = 0 ∧ s.ofifo.length ≤ 32 ∧
      s.cnt.val = s.inBytes.toNat % 16 ∧ s.outBytes.toNat = 16 * (s.inBytes.toNat / 16) := by
  constructor
  · intro h
    exact ⟨h.enc hs, h.noErr (by simp [hs]), h.ivw (by simp [hs]), h.room, h.encCount hs⟩
  · rintro ⟨hhbv, herr, hivw, hroom, hcount⟩
    constructor <;> simp [hs, hhbv, herr, hivw, Config.ofifoDepth]
    · exact hroom
    · exact hcount

theorem operationInv_dec {s : State} (hs : s.state = .dec) :
    OperationInv s ↔ s.err = .none ∧ s.ivw = 0 ∧ s.ofifo.length ≤ 32 ∧ s.cnt.val = s.inBytes.toNat % 16 ∧
      (s.hbv = false → s.inBytes.toNat < 16 ∧ s.outBytes = 0) ∧
      (s.hbv = true → s.outBytes.toNat = (16 * (s.inBytes.toNat / 16) + (2 ^ 64 - 16)) % 2 ^ 64) := by
  constructor
  · intro h
    exact ⟨h.noErr (by simp [hs]), h.ivw (by simp [hs]), h.room, h.decCount hs⟩
  · rintro ⟨herr, hivw, hroom, hcount⟩
    constructor <;> simp [hs, herr, hivw, Config.ofifoDepth]
    · exact hroom
    · simpa using hcount

theorem operationInv_done {s : State} (hs : s.state = .done) :
    OperationInv s ↔ s.cnt = 0 ∧ s.hbv = false ∧ s.err = .none ∧ s.ivw = 0 ∧ s.ofifo.length ≤ 32 := by
  constructor
  · intro h
    obtain ⟨hcnt, hhbv⟩ := h.done hs
    exact ⟨hcnt, hhbv, h.noErr (by simp [hs]), h.ivw (by simp [hs]), h.room⟩
  · rintro ⟨hcnt, hhbv, herr, hivw, hroom⟩
    constructor <;> simp [hs, hcnt, hhbv, herr, hivw, Config.ofifoDepth]
    exact hroom

theorem operationInv_error {s : State} (hs : s.state = .error) :
    OperationInv s ↔ s.ofifo = [] ∧ s.cnt = 0 ∧ s.hbv = false ∧ s.err ≠ .none ∧ s.ivw = 0 := by
  constructor
  · intro h
    obtain ⟨hempty, hcnt, hhbv, herr⟩ := h.error hs
    exact ⟨hempty, hcnt, hhbv, herr, h.ivw (by simp [hs])⟩
  · rintro ⟨hempty, hcnt, hhbv, herr, hivw⟩
    constructor <;> simp [hs, hempty, hcnt, hhbv, hivw]
    exact herr

/-! ## Updates of the host's side only -/

/-- The fields that the operation's part of the invariant reads; the checks of a command read no other. -/
def operationOf (s : State) : OpState × StreamErr × BitVec 4 × Fin 16 × Bool × List Byte × Count × Count :=
  (s.state, s.err, s.ivw, s.cnt, s.hbv, s.ofifo, s.inBytes, s.outBytes)

theorem OperationInv.congr {s t : State} (h : OperationInv s) (hsame : operationOf t = operationOf s) :
    OperationInv t := by
  obtain ⟨⟩ := s
  obtain ⟨⟩ := t
  simp only [operationOf, Prod.mk.injEq] at hsame
  obtain ⟨rfl, rfl, rfl, rfl, rfl, rfl, rfl, rfl⟩ := hsame
  exact ⟨h.idle, h.error, h.noErr, h.enc, h.done, h.room, h.encCount, h.decCount, h.ivw⟩

theorem commandFault_of_sameOperation {s t : State} (hsame : operationOf t = operationOf s) (c : Command)
    (n : BitVec 3) : commandFault c n t = commandFault c n s := by
  simp only [operationOf, Prod.mk.injEq] at hsame
  obtain ⟨hstate, -, hivw, hcnt, hhbv, hofifo, -, -⟩ := hsame
  exact commandFault_congr hstate hivw hcnt hhbv hofifo c n

/-- Neither the operation nor the pending command is touched, and CERR still shows whether a refusal stands. -/
theorem stepInv_of_sameOperation {s t : State} (h : StepInv s) (hsame : operationOf t = operationOf s)
    (hbusy : t.busy = s.busy) (hpend : t.pend = s.pend) (hcerr : t.cerrP = true ↔ t.cerr ≠ .none) : StepInv t := by
  obtain ⟨hop, hpending, hlegal, -⟩ := stepInv_iff.1 h
  refine stepInv_iff.2 ⟨hop.congr hsame, by rw [hbusy, hpend, hpending], fun p hp => ?_, hcerr⟩
  rw [commandFault_of_sameOperation hsame]
  exact hlegal p (hpend ▸ hp)

/-- The orders to come are no part of the invariant. -/
theorem stepInv_withInputs {s : State} (h : StepInv s) (l : List Event) : StepInv (withInputs l s) :=
  stepInv_of_sameOperation h rfl rfl rfl h.cerr

/-- A refusal keeps the invariant: CERR and CERR_P go up together. -/
theorem stepInv_cmdError {s : State} (h : StepInv s) {e : CmdErr} (he : e ≠ .none) : StepInv (cmdError e s) :=
  stepInv_of_sameOperation h rfl rfl rfl (by simp [he])

/-- An acceptance keeps the invariant: the checks it passed read nothing that it changes. -/
theorem stepInv_accept {s : State} (h : StepInv s) {c : Command} {n : BitVec 3} (hc : commandFault c n s = .none) :
    StepInv (accept c n s) := by
  obtain ⟨hop, -, -, hcerr⟩ := stepInv_iff.1 h
  refine stepInv_iff.2 ⟨hop.congr rfl, rfl, fun p hp => ?_, hcerr⟩
  cases hp
  exact hc

/-- A write of CMD keeps the invariant, whether it is accepted or refused. -/
theorem stepInv_issue {s : State} (h : StepInv s) (op : BitVec 4) (n : BitVec 3) : StepInv (issue op n s) := by
  obtain ⟨c, -, -, hc, heq⟩ | ⟨e, he, heq⟩ := issue_cases op n s
  · exact heq ▸ stepInv_accept h hc
  · exact heq ▸ stepInv_cmdError h he

/-- A write of IVn keeps the invariant: IVW changes in IDLE with nothing pending only. -/
theorem stepInv_writeIv {s : State} (h : StepInv s) (n : Fin 4) (v : Word) : StepInv (writeIv n v s) := by
  obtain ⟨hbusy, hidle, heq⟩ | ⟨-, heq⟩ := writeIv_cases n v s
  · obtain ⟨hop, hpending, -, hcerr⟩ := stepInv_iff.1 h
    have hnone : s.pend = none := by simpa [hbusy] using hpending
    rw [heq]
    refine stepInv_iff.2 ⟨?_, hpending, fun p hp => ?_, hcerr⟩
    · exact (operationInv_idle (s := storeIv n v s) hidle).2 ((operationInv_idle hidle).1 hop)
    · simp [hnone] at hp
  · exact heq ▸ stepInv_cmdError h (by decide)

/-- A write of STATUS keeps the invariant: bit 19 clears CERR together with CERR_P. -/
theorem stepInv_clearPending {s : State} (h : StepInv s) (v : Word) : StepInv (clearPending v s) := by
  refine stepInv_of_sameOperation h rfl rfl rfl ?_
  have hcerr := h.cerr
  cases hv : v.getLsbD 19 <;> simp [hv, hcerr, and_comm]

/-- Every bus operation of the host keeps the invariant. -/
theorem stepInv_hostAccess {a : Access} {i : Instr} {s t : State} (h : StepInv s) (hd : decodeBus a = .ok i)
    (hexec : exec i s = .next t) : StepInv t := by
  obtain ⟨-, rfl⟩ | ⟨-, hwrite⟩ := hostAccess_cases hd hexec
  · exact stepInv_of_sameOperation h rfl rfl rfl h.cerr
  obtain ⟨-, rfl⟩ | ⟨-, rfl⟩ | ⟨-, rfl⟩ | ⟨n, -, rfl⟩ | ⟨-, rfl⟩ | rfl := hwrite
  · exact stepInv_of_sameOperation h rfl rfl rfl h.cerr
  · exact stepInv_clearPending h a.data
  · exact stepInv_issue h _ _
  · exact stepInv_writeIv h n a.data
  · exact stepInv_of_sameOperation h rfl rfl rfl h.cerr
  · exact h

/-! ## The effects of the commands -/

/-- INIT in IDLE starts an operation that has the invariant (R134). -/
theorem operationInv_initOp {s : State} (h : OperationInv s) (hs : s.state = .idle) {m : OpState}
    (hm : m = .enc ∨ m = .dec) : OperationInv (initOp m s) := by
  obtain ⟨hempty, -, -, -⟩ := (operationInv_idle hs).1 h
  obtain rfl | rfl := hm
  · exact (operationInv_enc (initOp_state _ _)).2 (by simp [hempty])
  · exact (operationInv_dec (initOp_state _ _)).2 (by simp [hempty])

/-- A stream error leaves the invariant's ERROR (R203); IVW is 0 already, because an operation was running. -/
theorem operationInv_streamError {s : State} (h : OperationInv s) (hs : s.state ≠ .idle) {e : StreamErr}
    (he : e ≠ .none) : OperationInv (streamError e s) :=
  (operationInv_error (streamError_state _ _)).2 ⟨rfl, rfl, rfl, he, h.ivw hs⟩

/-- CLEAR leaves the invariant's IDLE where the FIFO is empty (R136). -/
theorem operationInv_returnToIdle {s : State} (hempty : s.ofifo = []) : OperationInv (returnToIdle s) :=
  (operationInv_idle (returnToIdle_state _)).2 ⟨hempty, rfl, rfl, rfl⟩

/-- POP only shortens the FIFO. -/
theorem operationInv_fifoPop {s : State} (h : OperationInv s) (n : Nat) : OperationInv (fifoPop n s) where
  idle hs := by
    obtain ⟨hempty, hrest⟩ := h.idle hs
    exact ⟨by simp [hempty], hrest⟩
  error hs := by
    obtain ⟨hempty, hrest⟩ := h.error hs
    exact ⟨by simp [hempty], hrest⟩
  noErr := h.noErr
  enc := h.enc
  done := h.done
  room := by
    have hroom := h.room
    simp only [fifoPop_ofifo, List.length_drop]
    omega
  encCount := h.encCount
  decCount := h.decCount
  ivw := h.ivw

/-- The fields FinalEnc writes (R179): the padded block is encrypted to some block ct, which is output. -/
theorem finalEnc_eq (c : Cipher) (s : State) :
    ∃ blk ct : Block, finalEnc c s =
      { s with
        buf := blk, chain := ct, ofifo := s.ofifo ++ ct.toList, outBytes := s.outBytes + 16#64, cnt := 0,
        state := .done, doneP := true } := by
  refine ⟨padBlock s.buf s.cnt, c.enc (xor16 (padBlock s.buf s.cnt) s.chain), ?_⟩
  simp only [finalEnc, encBlock, fifoPush, Vector.length_toList]

/-- FINAL in ENC: the one block it outputs finds room. -/
theorem operationInv_finalEnc {s : State} (h : OperationInv s) (hs : s.state = .enc) (hroom : s.ofifo.length ≤ 16)
    (c : Cipher) : OperationInv (finalEnc c s) := by
  obtain ⟨hhbv, herr, hivw, -, -, -⟩ := (operationInv_enc hs).1 h
  obtain ⟨blk, ct, heq⟩ := finalEnc_eq c s
  rw [heq]
  refine (operationInv_done ?_).2 ⟨rfl, hhbv, herr, hivw, ?_⟩
  · rfl
  · simp only [List.length_append, Vector.length_toList]
    omega

/-- FINAL in DEC: a stream error, or at most 16 bytes of output, which find room. -/
theorem operationInv_finalDec {s : State} (h : OperationInv s) (hs : s.state = .dec) (hroom : s.ofifo.length ≤ 16) :
    OperationInv (finalDec s) := by
  have hrun : s.state ≠ .idle := by simp [hs]
  obtain ⟨-, heq⟩ | ⟨-, -, heq⟩ | ⟨-, -, -, heq⟩ | ⟨hcnt, -, -, heq⟩ := finalDec_cases s <;> rw [heq]
  · exact operationInv_streamError h hrun (by decide)
  · exact operationInv_streamError h hrun (by decide)
  · exact operationInv_streamError h hrun (by decide)
  · obtain ⟨herr, hivw, -, -⟩ := (operationInv_dec hs).1 h
    refine (operationInv_done ?_).2 ⟨hcnt, rfl, herr, hivw, ?_⟩
    · rfl
    · simp only [unstrip, fifoPush, List.length_append, unpad_length]
      omega

/-- The block BUF makes up with the first of further bytes. -/
def gatheredBlock (s : State) (bs : List Byte) : Block :=
  Vector.ofFn fun k : Fin 16 => if k.val < s.cnt.val then s.buf[k] else bs.getD (k.val - s.cnt.val) 0

/-- All that PUSH can do: its bytes stay in BUF, or they complete one block, which is processed. -/
theorem pushOp_cases (c : Cipher) {n : BitVec 3} (hn : n.toNat ≤ 4) (d : Word) (s : State) :
    (∃ (hlt : s.cnt.val + n.toNat < 16) (buf : Block), pushOp c n d s =
      { s with buf := buf, cnt := ⟨s.cnt.val + n.toNat, hlt⟩, inBytes := s.inBytes + BitVec.ofNat 64 n.toNat }) ∨
    (16 ≤ s.cnt.val + n.toNat ∧ ∃ (B buf : Block) (hlt : s.cnt.val + n.toNat - 16 < 16), pushOp c n d s =
      { processBlock c B s with
        buf := buf, cnt := ⟨s.cnt.val + n.toNat - 16, hlt⟩, inBytes := s.inBytes + BitVec.ofNat 64 n.toNat }) := by
  have hlen := dataBytes_length n d
  have hcnt := s.cnt.isLt
  rcases Nat.lt_or_ge (s.cnt.val + n.toNat) 16 with hlt | hge
  · obtain ⟨buf, heq, -⟩ := accBytes_gathers c (dataBytes n d) s (by omega)
    refine .inl ⟨hlt, buf, ?_⟩
    simp only [pushOp, heq, hlen]
  · obtain ⟨buf, heq, -⟩ := accBytes_completes c s (dataBytes n d) (gatheredBlock s (dataBytes n d)) (by omega)
      (by omega) (fun k hk => by simp only [gatheredBlock, Vector.getElem_ofFn]; rfl)
    refine .inr ⟨hge, gatheredBlock s (dataBytes n d), buf, by omega, ?_⟩
    have hin : (processBlock c (gatheredBlock s (dataBytes n d)) s).inBytes = s.inBytes := by
      rw [processBlock_frame]
    simp only [pushOp, heq, hlen, hin]

/-- The fields a block processed in ENC writes (R151): it is encrypted to some block ct, which is output. -/
theorem processBlock_enc (c : Cipher) (b : Block) {s : State} (hs : s.state = .enc) :
    ∃ ct : Block, processBlock c b s =
      { s with chain := ct, ofifo := s.ofifo ++ ct.toList, outBytes := s.outBytes + 16#64 } := by
  refine ⟨c.enc (xor16 b s.chain), ?_⟩
  simp only [processBlock, hs, if_true, encBlock, fifoPush, Vector.length_toList]

/-- The fields the first block processed in DEC writes (R152): it is held back. -/
theorem processBlock_dec_first (c : Cipher) (b : Block) {s : State} (hs : s.state = .dec) (hv : s.hbv = false) :
    ∃ pt : Block, processBlock c b s = { s with chain := b, hb := pt, hbv := true } := by
  refine ⟨xor16 (c.dec b) s.chain, ?_⟩
  simp only [processBlock, hs, reduceCtorEq, if_false, decBlock, releaseHoldBack, hv, Bool.false_eq_true]

/-- The fields a later block processed in DEC writes (R152): it is held back, and the one before it is output. -/
theorem processBlock_dec_later (c : Cipher) (b : Block) {s : State} (hs : s.state = .dec) (hv : s.hbv = true) :
    ∃ pt : Block, processBlock c b s =
      { s with
        chain := b, hb := pt, hbv := true, ofifo := s.ofifo ++ s.hb.toList, outBytes := s.outBytes + 16#64 } := by
  refine ⟨xor16 (c.dec b) s.chain, ?_⟩
  simp only [processBlock, hs, reduceCtorEq, if_false, decBlock, releaseHoldBack, hv, if_true, fifoPush,
    Vector.length_toList]

/-- A PUSH in ENC: OUT_BYTES gains 16 where IN_BYTES passes a multiple of 16, and both wrap together. -/
theorem operationInv_pushOp_enc {s : State} (h : OperationInv s) (hs : s.state = .enc) (c : Cipher) {n : BitVec 3}
    (hn : n.toNat ≤ 4) (hroom : 16 ≤ s.cnt.val + n.toNat → s.ofifo.length + 16 ≤ 32) (d : Word) :
    OperationInv (pushOp c n d s) := by
  obtain ⟨hhbv, herr, hivw, hfifo, hcnt, hout⟩ := (operationInv_enc hs).1 h
  have hin := s.inBytes.isLt
  obtain ⟨hlt, buf, heq⟩ | ⟨hge, B, buf, hlt, heq⟩ := pushOp_cases c hn d s <;> rw [heq]
  · refine (operationInv_enc ?_).2 ⟨hhbv, herr, hivw, hfifo, ?_⟩
    · exact hs
    · simp only [BitVec.toNat_add, BitVec.toNat_ofNat]
      omega
  · have hfits := hroom hge
    obtain ⟨ct, hblock⟩ := processBlock_enc c B hs
    rw [hblock]
    refine (operationInv_enc ?_).2 ⟨hhbv, herr, hivw, ?_⟩
    · exact hs
    · simp only [List.length_append, Vector.length_toList, BitVec.toNat_add, BitVec.toNat_ofNat]
      omega

/-- A PUSH in DEC: OUT_BYTES runs one block behind IN_BYTES, because the latest block is held back. -/
theorem operationInv_pushOp_dec {s : State} (h : OperationInv s) (hs : s.state = .dec) (c : Cipher) {n : BitVec 3}
    (hn : n.toNat ≤ 4) (hroom : 16 ≤ s.cnt.val + n.toNat → s.hbv = true → s.ofifo.length + 16 ≤ 32) (d : Word) :
    OperationInv (pushOp c n d s) := by
  obtain ⟨herr, hivw, hfifo, hcnt, hempty, hheld⟩ := (operationInv_dec hs).1 h
  have hin := s.inBytes.isLt
  obtain ⟨hlt, buf, heq⟩ | ⟨hge, B, buf, hlt, heq⟩ := pushOp_cases c hn d s <;> rw [heq]
  · refine (operationInv_dec ?_).2 ⟨herr, hivw, hfifo, ?_, fun hv => ?_, fun hv => ?_⟩
    · exact hs
    · simp only [BitVec.toNat_add, BitVec.toNat_ofNat]
      omega
    · obtain ⟨hfew, hzero⟩ := hempty hv
      refine ⟨?_, hzero⟩
      simp only [BitVec.toNat_add, BitVec.toNat_ofNat]
      omega
    · have hcount := hheld hv
      simp only [BitVec.toNat_add, BitVec.toNat_ofNat]
      omega
  · cases hv : s.hbv
    · obtain ⟨hfew, hzero⟩ := hempty hv
      obtain ⟨pt, hblock⟩ := processBlock_dec_first c B hs hv
      rw [hblock]
      refine (operationInv_dec ?_).2 ⟨herr, hivw, hfifo, ?_, by simp, fun _ => ?_⟩
      · exact hs
      · simp only [BitVec.toNat_add, BitVec.toNat_ofNat]
        omega
      · have hnone : s.outBytes.toNat = 0 := by rw [hzero]; rfl
        simp only [BitVec.toNat_add, BitVec.toNat_ofNat]
        omega
    · have hcount := hheld hv
      have hfits := hroom hge hv
      obtain ⟨pt, hblock⟩ := processBlock_dec_later c B hs hv
      rw [hblock]
      refine (operationInv_dec ?_).2 ⟨herr, hivw, ?_, ?_, by simp, fun _ => ?_⟩
      · exact hs
      · simp only [List.length_append, Vector.length_toList]
        omega
      all_goals
        simp only [BitVec.toNat_add, BitVec.toNat_ofNat]
        omega

/-- The effect of every command whose checks hold keeps the operation's part of the invariant. -/
theorem operationInv_commandEffect {s : State} (h : OperationInv s) (c : Cipher) {p : Pend}
    (hlegal : commandFault p.op p.n s = .none) : OperationInv (commandEffect c p s) := by
  obtain ⟨op, n, d⟩ := p
  dsimp only at hlegal
  cases op with
  | nop => exact h
  | initEnc => exact operationInv_initOp h (accepted_init (.inl rfl) hlegal).1 (.inl rfl)
  | initDec => exact operationInv_initOp h (accepted_init (.inr rfl) hlegal).1 (.inr rfl)
  | push =>
    obtain ⟨-, hn, hs | hs, hroom⟩ := accepted_push hlegal
    · exact operationInv_pushOp_enc h hs c hn (by simpa [hs] using hroom) d
    · exact operationInv_pushOp_dec h hs c hn (fun hge hv => by simpa [hv] using hroom hge) d
  | final =>
    obtain ⟨hs | hs, hroom⟩ := accepted_final hlegal
    · simpa only [commandEffect, finalOp, hs, if_true] using operationInv_finalEnc h hs hroom c
    · simpa only [commandEffect, finalOp, hs, reduceCtorEq, if_false] using operationInv_finalDec h hs hroom
  | pop => exact operationInv_fifoPop h n.toNat
  | abort =>
    refine operationInv_streamError h (fun hs => ?_) (by decide)
    simpa [hs] using accepted_abort hlegal
  | clear =>
    obtain ⟨hs | hs | hs, hdrained⟩ := accepted_clear hlegal
    · exact operationInv_returnToIdle (h.idle hs).1
    · exact operationInv_returnToIdle (hdrained hs)
    · exact operationInv_returnToIdle (h.error hs).1

/-- The frame of PUSH's effect. -/
theorem pushOp_frame (c : Cipher) (n : BitVec 3) (d : Word) (s : State) :
    let t := pushOp c n d s
    t = { s with
      buf := t.buf, cnt := t.cnt, chain := t.chain, hb := t.hb, hbv := t.hbv, ofifo := t.ofifo, inBytes := t.inBytes,
      outBytes := t.outBytes } := by
  have hframe := accBytes_frame c (dataBytes n d) s
  simp only [pushOp] at hframe ⊢
  generalize accBytes c (dataBytes n d) s = t at hframe ⊢
  rw [hframe]

/-- The frame of FINAL's effect. -/
theorem finalOp_frame (c : Cipher) (s : State) :
    let t := finalOp c s
    t = { s with
      state := t.state, err := t.err, doneP := t.doneP, errP := t.errP, chain := t.chain, buf := t.buf, cnt := t.cnt,
      hb := t.hb, hbv := t.hbv, ofifo := t.ofifo, outBytes := t.outBytes } := by
  simp only [finalOp]
  split
  · obtain ⟨blk, ct, heq⟩ := finalEnc_eq c s
    rw [heq]
  · obtain ⟨-, heq⟩ | ⟨-, -, heq⟩ | ⟨-, -, -, heq⟩ | ⟨-, -, -, heq⟩ := finalDec_cases s <;> rw [heq] <;> rfl

/-- The frame of a command's effect: what no effect touches (R108). -/
theorem commandEffect_frame (c : Cipher) (p : Pend) (s : State) :
    let t := commandEffect c p s
    t = { s with
      state := t.state, err := t.err, ivw := t.ivw, doneP := t.doneP, errP := t.errP, chain := t.chain, buf := t.buf,
      cnt := t.cnt, hb := t.hb, hbv := t.hbv, ofifo := t.ofifo, dout := t.dout, inBytes := t.inBytes,
      outBytes := t.outBytes } := by
  obtain ⟨op, n, d⟩ := p
  cases op with
  | push =>
    have hframe := pushOp_frame c n d s
    simp only [commandEffect] at hframe ⊢
    generalize pushOp c n d s = t at hframe ⊢
    rw [hframe]
  | final =>
    have hframe := finalOp_frame c s
    simp only [commandEffect] at hframe ⊢
    generalize finalOp c s = t at hframe ⊢
    rw [hframe]
  | nop | initEnc | initDec | pop | abort | clear => rfl

/-- The completion of the pending command keeps the invariant. -/
theorem stepInv_complete {s : State} (h : StepInv s) (c : Cipher) {p : Pend} (hp : s.pend = some p) :
    StepInv (complete c p s) := by
  obtain ⟨hop, -, hlegal, hcerr⟩ := stepInv_iff.1 h
  have heffect := operationInv_commandEffect hop c (hlegal p hp)
  refine stepInv_iff.2 ⟨heffect.congr rfl, rfl, fun q hq => ?_, ?_⟩
  · simp [complete] at hq
  · simp only [complete, finish_cerrP, finish_cerr]
    rw [commandEffect_frame]
    exact hcerr

/-- Settles O38: every clause is about fields at their reset values. -/
theorem resetHasTheInvariant : Obligations.ResetHasTheInvariant :=
  stepInv_iff.2 ⟨(operationInv_idle rfl).2 ⟨rfl, rfl, rfl, rfl⟩, rfl, by simp [State.reset], by decide⟩

/-- Settles O39, along the four kinds of step. -/
theorem everyStepKeepsTheInvariant : Obligations.EveryStepKeepsTheInvariant := by
  intro s t h hstep
  obtain ⟨a, rest, i, -, hdecode, hexec⟩ | ⟨p, -, hp, -, rfl⟩ | ⟨rest, -, rfl⟩ | ⟨-, -, rfl⟩ := step_cases hstep
  · exact stepInv_hostAccess (stepInv_withInputs h rest) hdecode hexec
  · exact stepInv_complete (stepInv_withInputs h _) Config.cipher hp
  · exact stepInv_of_sameOperation resetHasTheInvariant rfl rfl rfl resetHasTheInvariant.cerr
  · exact stepInv_withInputs h _

/-! ## What each kind of step does to STATE, to DOUT and to the pending bits -/

/-- The frame of a bus operation of the host: what no access touches. -/
theorem hostAccess_frame {a : Access} {i : Instr} {s t : State} (hd : decodeBus a = .ok i)
    (hexec : exec i s = .next t) :
    t = { s with
      busy := t.busy, pend := t.pend, cerr := t.cerr, ivw := t.ivw, cmplP := t.cmplP, doneP := t.doneP,
      errP := t.errP, cerrP := t.cerrP, ctrl := t.ctrl, iv := t.iv, din := t.din, rdata := t.rdata } := by
  obtain ⟨-, rfl⟩ | ⟨-, hwrite⟩ := hostAccess_cases hd hexec
  · rfl
  obtain ⟨-, rfl⟩ | ⟨-, rfl⟩ | ⟨-, rfl⟩ | ⟨n, -, rfl⟩ | ⟨-, rfl⟩ | rfl := hwrite
  · rfl
  · rfl
  · obtain ⟨c, -, -, -, heq⟩ | ⟨e, -, heq⟩ := issue_cases (cmdOp a.data) (cmdN a.data) s <;> rw [heq] <;> rfl
  · obtain ⟨-, -, heq⟩ | ⟨-, heq⟩ := writeIv_cases n a.data s <;> rw [heq] <;> rfl
  · rfl
  · rfl

/-- The pending bits under a bus operation of the host: a write of STATUS clears those it names; else at most CERR_P
changes, by a refusal, which is a write (R29, R103). -/
theorem hostAccess_pendingBits {a : Access} {i : Instr} {s t : State} (hd : decodeBus a = .ok i)
    (hexec : exec i s = .next t) :
    (a.dir = .write ∧ a.off = 0x08 ∧ t = clearPending a.data s) ∨
    (t.cmplP = s.cmplP ∧ t.doneP = s.doneP ∧ t.errP = s.errP ∧
      (t.cerrP = s.cerrP ∨ (a.dir = .write ∧ t.cerrP = true ∧ t.cerr ≠ .none))) := by
  obtain ⟨-, rfl⟩ | ⟨hdir, hwrite⟩ := hostAccess_cases hd hexec
  · exact .inr ⟨rfl, rfl, rfl, .inl rfl⟩
  obtain ⟨-, rfl⟩ | ⟨hoff, rfl⟩ | ⟨-, rfl⟩ | ⟨n, -, rfl⟩ | ⟨-, rfl⟩ | rfl := hwrite
  · exact .inr ⟨rfl, rfl, rfl, .inl rfl⟩
  · exact .inl ⟨hdir, hoff, rfl⟩
  · obtain ⟨c, -, -, -, heq⟩ | ⟨e, he, heq⟩ := issue_cases (cmdOp a.data) (cmdN a.data) s <;> rw [heq]
    · exact .inr ⟨rfl, rfl, rfl, .inl rfl⟩
    · exact .inr ⟨rfl, rfl, rfl, .inr ⟨hdir, rfl, he⟩⟩
  · obtain ⟨-, -, heq⟩ | ⟨-, heq⟩ := writeIv_cases n a.data s <;> rw [heq]
    · exact .inr ⟨rfl, rfl, rfl, .inl rfl⟩
    · exact .inr ⟨rfl, rfl, rfl, .inr ⟨hdir, rfl, by simp⟩⟩
  · exact .inr ⟨rfl, rfl, rfl, .inl rfl⟩
  · exact .inr ⟨rfl, rfl, rfl, .inl rfl⟩

/-- R23's table, without its last row (reset): the command that completes, and STATE before and after. -/
def stateTable : List (Command × OpState × OpState) :=
  [(.initEnc, .idle, .enc), (.initDec, .idle, .dec), (.final, .enc, .done), (.final, .dec, .done),
   (.final, .dec, .error), (.abort, .enc, .error), (.abort, .dec, .error), (.abort, .done, .error),
   (.clear, .done, .idle), (.clear, .error, .idle)]

/-- Every row of the table changes STATE. -/
theorem stateTable_changes {c : Command} {before after : OpState} (h : (c, before, after) ∈ stateTable) :
    before ≠ after :=
  (by decide : ∀ row ∈ stateTable, row.2.1 ≠ row.2.2) _ h

/-- An effect that leaves STATE, DONE_P and ERR_P alone. -/
def KeepsState (s t : State) : Prop := t.state = s.state ∧ t.doneP = s.doneP ∧ t.errP = s.errP

/-- An effect that moves on to a STATE, with the pending bit of that STATE set (R29). -/
def EntersState (s t : State) : Prop :=
  t.doneP = (s.doneP || t.state == .done) ∧ t.errP = (s.errP || t.state == .error)

/-- What the effect of a command does to STATE, DONE_P and ERR_P: it leaves them alone, or it enters a STATE, along
R23's table where the command's checks hold. -/
theorem commandEffect_state (c : Cipher) (p : Pend) (s : State) :
    KeepsState s (commandEffect c p s) ∨
    (EntersState s (commandEffect c p s) ∧
      (commandFault p.op p.n s = .none → (p.op, s.state, (commandEffect c p s).state) ∈ stateTable)) := by
  obtain ⟨op, n, d⟩ := p
  cases op <;> dsimp only [commandEffect]
  case nop => exact .inl ⟨rfl, rfl, rfl⟩
  case initEnc =>
    refine .inr ⟨⟨by simp, by simp⟩, fun hlegal => ?_⟩
    obtain ⟨hs, -⟩ := accepted_init (.inl rfl) hlegal
    simp [hs, stateTable]
  case initDec =>
    refine .inr ⟨⟨by simp, by simp⟩, fun hlegal => ?_⟩
    obtain ⟨hs, -⟩ := accepted_init (.inr rfl) hlegal
    simp [hs, stateTable]
  case push =>
    refine .inl ?_
    rw [pushOp_frame]
    exact ⟨rfl, rfl, rfl⟩
  case final =>
    refine .inr ?_
    by_cases henc : s.state = .enc
    · obtain ⟨blk, ct, heq⟩ := finalEnc_eq c s
      simp only [finalOp, henc, if_true, heq]
      exact ⟨⟨by simp, by simp⟩, fun _ => by simp [stateTable]⟩
    simp only [finalOp, henc, if_false]
    have hdec : commandFault .final n s = .none → s.state = .dec := fun hlegal =>
      (accepted_final hlegal).1.resolve_left henc
    obtain ⟨-, heq⟩ | ⟨-, -, heq⟩ | ⟨-, -, -, heq⟩ | ⟨-, -, -, heq⟩ := finalDec_cases s <;> rw [heq]
    case inr.inr.inr =>
      exact ⟨⟨by simp [unstrip, fifoPush], by simp [unstrip, fifoPush]⟩,
        fun hlegal => by simp [hdec hlegal, unstrip, stateTable]⟩
    all_goals exact ⟨⟨by simp, by simp⟩, fun hlegal => by simp [hdec hlegal, stateTable]⟩
  case pop => exact .inl ⟨rfl, rfl, rfl⟩
  case abort =>
    refine .inr ⟨⟨by simp, by simp⟩, fun hlegal => ?_⟩
    obtain hs | hs | hs := accepted_abort hlegal <;> simp [hs, stateTable]
  case clear =>
    by_cases hs : s.state = .idle
    · exact .inl ⟨hs.symm, rfl, rfl⟩
    · refine .inr ⟨⟨by simp, by simp⟩, fun hlegal => ?_⟩
      obtain hs' | hs' | hs' := (accepted_clear hlegal).1
      · exact absurd hs' hs
      · simp [hs', stateTable]
      · simp [hs', stateTable]

/-- Only POP's effect writes DOUT (R36). -/
theorem commandEffect_dout (c : Cipher) {p : Pend} (hpop : p.op ≠ .pop) (s : State) :
    (commandEffect c p s).dout = s.dout := by
  obtain ⟨op, n, d⟩ := p
  cases op <;> dsimp only [commandEffect]
  case pop => exact absurd rfl hpop
  case push => rw [pushOp_frame]
  case final => rw [finalOp_frame]
  all_goals rfl

/-- Settles O41: a host access and waiting keep STATE, a reset makes it IDLE, and a completion follows the table,
because the invariant says that the pending command's checks still hold. -/
theorem stateChangesFollowTheTable : Obligations.StateChangesFollowTheTable := by
  intro s t h hstep hne
  obtain ⟨a, rest, i, -, hdecode, hexec⟩ | ⟨p, hbusy, hp, hnext, rfl⟩ | ⟨rest, hreset, rfl⟩ | ⟨-, -, rfl⟩ :=
    step_cases hstep
  · exact absurd (by rw [hostAccess_frame hdecode hexec]; rfl) hne
  · refine .inr ⟨⟨hbusy, hnext⟩, p.op, p.n, p.din, ⟨hbusy, hp⟩, ?_⟩
    obtain ⟨hkeep, -⟩ | ⟨-, htable⟩ := commandEffect_state Config.cipher p (withInputs s.inputs.tail s)
    · exact absurd hkeep hne
    · exact htable (h.stillLegal p hp)
  · exact .inl ⟨⟨rest, hreset⟩, rfl⟩
  · exact absurd rfl hne

/-- Settles O45: host accesses and waiting keep DOUT by their frames, and of the commands only POP writes it. -/
theorem onlyPopAndResetChangeDout : Obligations.OnlyPopAndResetChangeDout := by
  intro s t hstep hne
  obtain ⟨a, rest, i, -, hdecode, hexec⟩ | ⟨p, hbusy, hp, hnext, rfl⟩ | ⟨rest, hreset, -⟩ | ⟨-, -, rfl⟩ :=
    step_cases hstep
  · exact absurd (by rw [hostAccess_frame hdecode hexec]; rfl) hne
  · obtain ⟨op, n, d⟩ := p
    by_cases hpop : op = .pop
    · subst hpop
      exact .inr ⟨⟨hbusy, hnext⟩, n, d, hbusy, hp⟩
    · exact absurd (commandEffect_dout Config.cipher hpop (withInputs s.inputs.tail s)) hne
  · exact .inl ⟨rest, hreset⟩
  · exact absurd rfl hne

/-! ## The pending bits -/

/-- No pending bit is cleared between s and t. -/
structure KeepsPendingBits (s t : State) : Prop where
  cmplP : s.cmplP = true → t.cmplP = true
  doneP : s.doneP = true → t.doneP = true
  errP : s.errP = true → t.errP = true
  cerrP : s.cerrP = true → t.cerrP = true

/-- A completion clears no pending bit. -/
theorem complete_keepsPendingBits (c : Cipher) (p : Pend) (s : State) : KeepsPendingBits s (complete c p s) := by
  have hcerr : (commandEffect c p s).cerrP = s.cerrP := by rw [commandEffect_frame]
  obtain ⟨-, hdone, herr⟩ | ⟨⟨hdone, herr⟩, -⟩ := commandEffect_state c p s
  · exact ⟨fun _ => rfl, hdone.trans, herr.trans, hcerr.trans⟩
  · exact ⟨fun _ => rfl, fun hd => hdone.trans (by simp [hd]), fun he => herr.trans (by simp [he]), hcerr.trans⟩

/-- A step that clears a pending bit is a reset or a write of STATUS. -/
theorem step_pendingBits {s t : State} (hstep : step s = .next t) (hreset : ¬ResetIsNext s) :
    KeepsPendingBits s t ∨
    ∃ a rest, s.inputs = .host a :: rest ∧ a.dir = .write ∧ a.width = 32 ∧ a.off = 0x08 ∧
      t = clearPending a.data (withInputs rest s) := by
  obtain ⟨a, rest, i, hnext, hdecode, hexec⟩ | ⟨p, -, -, -, rfl⟩ | ⟨rest, hnext, -⟩ | ⟨-, -, rfl⟩ := step_cases hstep
  · obtain ⟨hdir, hoff, heq⟩ | ⟨hcmpl, hdone, herr, hcerr⟩ := hostAccess_pendingBits hdecode hexec
    · obtain ⟨hadmitted, -⟩ := decodeBus_eq_ok.1 hdecode
      obtain ⟨hwidth, -, -⟩ := admission_eq_none.1 hadmitted
      exact .inr ⟨a, rest, hnext, hdir, hwidth, hoff, heq⟩
    · refine .inl ⟨hcmpl.trans, hdone.trans, herr.trans, fun hc => ?_⟩
      obtain hkeep | ⟨-, hset, -⟩ := hcerr
      · exact hkeep.trans hc
      · exact hset
  · obtain ⟨hcmpl, hdone, herr, hcerr⟩ := complete_keepsPendingBits Config.cipher p (withInputs s.inputs.tail s)
    exact .inl ⟨hcmpl, hdone, herr, hcerr⟩
  · exact absurd ⟨rest, hnext⟩ hreset
  · exact .inl ⟨id, id, id, id⟩

/-- Settles O43: of the steps other than a reset, only a write of STATUS clears a pending bit, and it clears bit b where
its word has a 1. -/
theorem pendingBitsAreSticky : Obligations.PendingBitsAreSticky := by
  intro s t hstep hreset b before after hmem hbefore hafter
  simp only [List.mem_cons, Prod.mk.injEq, List.not_mem_nil, or_false] at hmem
  obtain ⟨hcmpl, hdone, herr, hcerr⟩ | ⟨a, rest, hnext, hdir, hwidth, hoff, rfl⟩ := step_pendingBits hstep hreset
  · exfalso
    obtain ⟨-, rfl, rfl⟩ | ⟨-, rfl, rfl⟩ | ⟨-, rfl, rfl⟩ | ⟨-, rfl, rfl⟩ := hmem
    · exact absurd (hcmpl hbefore) (by simp [hafter])
    · exact absurd (hdone hbefore) (by simp [hafter])
    · exact absurd (herr hbefore) (by simp [hafter])
    · exact absurd (hcerr hbefore) (by simp [hafter])
  · refine ⟨a, ⟨rest, hnext⟩, hdir, hwidth, hoff, ?_⟩
    obtain ⟨rfl, rfl, rfl⟩ | ⟨rfl, rfl, rfl⟩ | ⟨rfl, rfl, rfl⟩ | ⟨rfl, rfl, rfl⟩ := hmem <;>
      simpa [hbefore] using hafter

/-- Where its checks hold, the effect of a command sets DONE_P and ERR_P exactly on moving into DONE and into ERROR. -/
theorem commandEffect_pendingBits (c : Cipher) {p : Pend} {s : State} (hlegal : commandFault p.op p.n s = .none) :
    let t := commandEffect c p s
    (s.state ≠ .done → t.state = .done → t.doneP = true) ∧
    (s.doneP = false → t.doneP = true → s.state ≠ .done ∧ t.state = .done) ∧
    (s.state ≠ .error → t.state = .error → t.errP = true) ∧
    (s.errP = false → t.errP = true → s.state ≠ .error ∧ t.state = .error) := by
  obtain ⟨hstate, hdone, herr⟩ | ⟨⟨hdone, herr⟩, htable⟩ := commandEffect_state c p s
  · simp only [hstate, hdone, herr]
    exact ⟨fun hne heq => absurd heq hne, fun hd hd' => by simp [hd] at hd', fun hne heq => absurd heq hne,
      fun he he' => by simp [he] at he'⟩
  · have hne := stateTable_changes (htable hlegal)
    simp only [hdone, herr, Bool.or_eq_true, beq_iff_eq]
    refine ⟨fun _ => .inr, fun hd hd' => ?_, fun _ => .inr, fun he he' => ?_⟩
    · have hinto := hd'.resolve_left (by simp [hd])
      exact ⟨hinto ▸ hne, hinto⟩
    · have hinto := he'.resolve_left (by simp [he])
      exact ⟨hinto ▸ hne, hinto⟩

/-- A step that is no completion sets no pending bit but CERR_P, and CERR_P by a refused write of the host. -/
theorem step_pendingBits_of_not_completion {s t : State} (hstep : step s = .next t)
    (hcompletion : ¬CompletionIsNext s) :
    (t.cmplP = true → s.cmplP = true) ∧ (t.doneP = true → s.doneP = true) ∧ (t.errP = true → s.errP = true) ∧
      (s.cerrP = false → t.cerrP = true → (∃ a, HostIsNext s a ∧ a.dir = .write) ∧ t.cerr ≠ .none) := by
  obtain ⟨a, rest, i, hnext, hdecode, hexec⟩ | ⟨p, hbusy, -, hnext, -⟩ | ⟨rest, -, rfl⟩ | ⟨-, -, rfl⟩ :=
    step_cases hstep
  · obtain ⟨-, -, rfl⟩ | ⟨hcmpl, hdone, herr, hcerr⟩ := hostAccess_pendingBits hdecode hexec
    · simp only [clearPending_cmplP, clearPending_doneP, clearPending_errP, clearPending_cerrP, Bool.and_eq_true]
      exact ⟨And.left, And.left, And.left, fun hc hc' => absurd hc'.1 (by simp [hc])⟩
    · refine ⟨hcmpl.symm.trans, hdone.symm.trans, herr.symm.trans, fun hc hc' => ?_⟩
      obtain hkeep | ⟨hdir, -, hcode⟩ := hcerr
      · exact absurd (hkeep.symm.trans hc') (by simp [hc])
      · exact ⟨⟨a, ⟨rest, hnext⟩, hdir⟩, hcode⟩
  · exact absurd ⟨hbusy, hnext⟩ hcompletion
  · exact ⟨nofun, nofun, nofun, nofun⟩
  · exact ⟨id, id, id, fun hc hc' => absurd hc' (by simp [hc])⟩

/-- A completion step is the completion of the pending command. -/
theorem step_of_completionIsNext {s t : State} (hstep : step s = .next t) (h : CompletionIsNext s) :
    ∃ p, s.pend = some p ∧ t = complete Config.cipher p (withInputs s.inputs.tail s) := by
  obtain ⟨hbusy, hnext⟩ := h
  cases hp : s.pend with
  | none => simp [step_stuck hbusy hp hnext] at hstep
  | some p =>
    rw [step_completion hbusy hp hnext] at hstep
    cases hstep
    exact ⟨p, rfl, rfl⟩

/-- Settles O44: a completion sets CMPL_P, sets DONE_P and ERR_P with the STATE it enters, and leaves CERR_P; any other
step sets CERR_P alone. -/
theorem pendingBitsAreSetByTheirEvents : Obligations.PendingBitsAreSetByTheirEvents := by
  intro s t h hstep
  by_cases hcompletion : CompletionIsNext s
  · obtain ⟨p, hp, rfl⟩ := step_of_completionIsNext hstep hcompletion
    have hlegal : commandFault p.op p.n (withInputs s.inputs.tail s) = .none := h.stillLegal p hp
    obtain ⟨hdone, hdone', herr, herr'⟩ := commandEffect_pendingBits Config.cipher hlegal
    have hcerr : (commandEffect Config.cipher p (withInputs s.inputs.tail s)).cerrP = s.cerrP := by
      rw [commandEffect_frame]; rfl
    exact ⟨fun _ => rfl, fun _ _ => ⟨hcompletion, rfl⟩, fun _ => hdone, fun hd hd' => ⟨hcompletion, hdone' hd hd'⟩,
      fun _ => herr, fun he he' => ⟨hcompletion, herr' he he'⟩,
      fun hc hc' => absurd (hcerr.symm.trans hc') (by simp [hc])⟩
  · obtain ⟨hcmpl, hdone, herr, hcerr⟩ := step_pendingBits_of_not_completion hstep hcompletion
    exact ⟨(absurd · hcompletion), fun hc hc' => absurd (hcmpl hc') (by simp [hc]), (absurd · hcompletion),
      fun hd hd' => absurd (hdone hd') (by simp [hd]), (absurd · hcompletion),
      fun he he' => absurd (herr he') (by simp [he]), hcerr⟩

/-! ## The registers as they are read -/

/-- The fields of the STATUS word that are wider than a bit (R25). -/
theorem statusWord_fields (s : State) :
    (statusWord s).extractLsb' 0 3 = stateCode s.state ∧ (statusWord s).extractLsb' 4 4 = streamErrCode s.err ∧
    (statusWord s).extractLsb' 8 4 = cmdErrCode s.cerr ∧ (statusWord s).extractLsb' 12 4 = s.ivw ∧
    (statusWord s).extractLsb' 21 11 = 0 := by
  simp (disch := decide) only [statusWord, BitVec.extractLsb'_append_eq_of_le, BitVec.extractLsb'_append_eq_of_add_le]
  simp

/-- The single bits of the STATUS word (R25). -/
theorem statusWord_bits (s : State) :
    (statusWord s).getLsbD 3 = s.busy ∧ (statusWord s).getLsbD 16 = s.cmplP ∧ (statusWord s).getLsbD 17 = s.doneP ∧
    (statusWord s).getLsbD 18 = s.errP ∧ (statusWord s).getLsbD 19 = s.cerrP ∧ (statusWord s).getLsbD 20 = irq s := by
  simp only [statusWord, BitVec.getLsbD_append]
  simp

/-- When the interrupt level is up: a pending bit and its enable are (R30). -/
theorem irq_iff (s : State) :
    irq s = true ↔
      (s.cmplP = true ∧ s.ctrl.getLsbD 0 = true) ∨ (s.doneP = true ∧ s.ctrl.getLsbD 1 = true) ∨
      (s.errP = true ∧ s.ctrl.getLsbD 2 = true) ∨ (s.cerrP = true ∧ s.ctrl.getLsbD 3 = true) := by
  simp only [irq, Bool.or_eq_true, Bool.and_eq_true, or_assoc]

/-- Settles O9: the layout of the word, with the codes of its named fields. -/
theorem statusWordShowsItsFields : Obligations.StatusWordShowsItsFields := by
  intro s
  obtain ⟨hstate, herr, hcerr, hivw, hzero⟩ := statusWord_fields s
  obtain ⟨hbusy, hcmpl, hdone, herrP, hcerrP, hirq⟩ := statusWord_bits s
  simp only [busRead]
  refine ⟨?_, hbusy, ?_, ?_, hivw, hcmpl, hdone, herrP, hcerrP, ?_, hzero⟩
  · rw [hstate]
    cases s.state <;> rfl
  · rw [herr]
    cases s.err <;> rfl
  · rw [hcerr]
    cases s.cerr <;> rfl
  · rw [hirq]
    exact irq_iff s

/-- The fields of the LEVEL word (R37). -/
theorem levelWord_fields (s : State) :
    (levelWord s).extractLsb' 0 6 = BitVec.ofNat 6 s.ofifo.length ∧ (levelWord s).extractLsb' 6 2 = 0 ∧
    (levelWord s).extractLsb' 8 4 = BitVec.ofNat 4 s.cnt.val ∧ (levelWord s).extractLsb' 12 4 = 0 ∧
    (levelWord s).getLsbD 16 = s.hbv ∧ (levelWord s).extractLsb' 17 15 = 0 := by
  simp (disch := decide) only [levelWord, BitVec.extractLsb'_append_eq_of_le, BitVec.extractLsb'_append_eq_of_add_le,
    BitVec.getLsbD_append]
  simp

/-- Settles O10: six bits show a FIFO of at most 32 bytes in full, and LEVEL is one of the read-only registers. -/
theorem levelWordShowsItsFields : Obligations.LevelWordShowsItsFields := by
  intro s hroom
  obtain ⟨hocount, hzero, hcnt, hzero', hhbv, hzero''⟩ := levelWord_fields s
  have hlt := s.cnt.isLt
  simp only [busRead]
  refine ⟨?_, hzero, ?_, hzero', hhbv, hzero'', fun v => rfl⟩
  · rw [hocount, BitVec.toNat_ofNat, Nat.mod_eq_of_lt (by omega)]
  · rw [hcnt, BitVec.toNat_ofNat, Nat.mod_eq_of_lt (by omega)]

/-- The two words of a counter, joined, are the counter (R38, R39). -/
theorem count_words (x : Count) : x.extractLsb' 32 32 ++ x.extractLsb' 0 32 = x := by
  rw [BitVec.extractLsb'_append_extractLsb'_eq_extractLsb' (by rfl)]
  simp

/-- Above the counters the window is reserved space, which reads 0 (R43). -/
theorem busRead_reserved (s : State) {off : Nat} (h : 0x50 ≤ off) : busRead s off = 0 := by
  unfold busRead
  split
  case h_21 => rfl
  all_goals omega

/-- Settles O12: the map is evaluated word by word; a counter is its two words joined. -/
theorem otherRegistersReadAsMapped : Obligations.OtherRegistersReadAsMapped := fun s =>
  ⟨rfl, BitVec.toNat_setWidth_of_le (by decide), rfl, rfl, rfl, rfl, count_words s.inBytes,
    count_words s.outBytes, fun _ => busRead_reserved s⟩

/-- Settles O13: the fields are those of the record, and the window is evaluated word by word. -/
theorem resetRecordAndItsReads : Obligations.ResetRecordAndItsReads := by
  refine ⟨rfl, rfl, rfl, rfl, rfl, rfl, rfl, rfl, rfl, rfl, rfl, rfl, rfl, rfl, rfl, rfl, rfl, rfl, rfl, rfl, rfl,
    rfl, ?_⟩
  decide

end Sys2Proof.Proofs.ArchState
end

section
/-! PROOFS. The register window as the host accesses it (spec/20_memory.md): which accesses are taken, what a read gives
and leaves, how the bytes of a block lie in its words, and what an access can touch while a command is pending. -/

namespace Sys2Proof.Proofs.Memory

open Sys2Proof Sys2Proof.Machine Sys2Proof.Claims Sys2Proof.Proofs.ArchState

/-! ## Which accesses are taken -/

/-- The admitted write offsets outside the writable registers and below reserved space are the read-only registers. -/
theorem mem_readOnlyOffsets {off : Nat} (h : off < 0x50) (h4 : off % 4 = 0)
    (hout : off ∉ [0x04, 0x08, 0x0C, 0x10, 0x14, 0x18, 0x1C, 0x30]) : off ∈ readOnlyOffsets := by
  simp only [readOnlyOffsets, List.mem_cons, List.not_mem_nil, or_false, not_or] at hout ⊢
  omega

/-- The row of a write at an admitted offset is an instruction. -/
theorem decodeWrite_wellFormed {off : Nat} (h : off < 128) (h4 : off % 4 = 0) (v : Word) :
    (decodeWrite off v).wellFormed = true := by
  have hoff : (BitVec.ofNat 7 off).toNat = off := by rw [BitVec.toNat_ofNat, Nat.mod_eq_of_lt h]
  obtain ⟨-, he⟩ | ⟨-, he⟩ | ⟨-, he⟩ | ⟨-, he⟩ | ⟨-, he⟩ | ⟨-, he⟩ | ⟨-, he⟩ | ⟨-, he⟩ | ⟨hout, he⟩ :=
    decodeWrite_cases off v <;> rw [he]
  case inr.inr.inr.inr.inr.inr.inr.inr =>
    split_ifs with hreserved
    · simp [Instr.wellFormed, inReservedSpace, aligned, hoff, h4, hreserved]
    · simpa [Instr.wellFormed, hoff] using mem_readOnlyOffsets (by omega) h4 hout
  all_goals rfl

/-- An access that is taken decodes to an instruction. -/
theorem decodeBus_wellFormed {a : Access} {i : Instr} (hd : decodeBus a = .ok i) : i.wellFormed = true := by
  obtain ⟨hadmitted, rfl⟩ := decodeBus_eq_ok.1 hd
  obtain ⟨-, hlt, h4⟩ := admission_eq_none.1 hadmitted
  cases a.dir with
  | read => simp [Instr.wellFormed, aligned, Nat.mod_eq_of_lt hlt, h4]
  | write => exact decodeWrite_wellFormed hlt h4 a.data

/-- A read at an aligned offset is `readTo`. -/
theorem exec_rd {off : BitVec 7} (h4 : off.toNat % 4 = 0) (s : State) :
    exec (.rd off) s = .next (readTo off.toNat s) := by
  simp [exec, execRd, aligned, h4]

/-- Every instruction completes, in every state. -/
theorem exec_completes {i : Instr} (hw : i.wellFormed = true) (s : State) : ∃ t, exec i s = .next t := by
  cases i with
  | rd off => exact ⟨_, exec_rd (by simpa [Instr.wellFormed, aligned] using hw) s⟩
  | reservedOp op n _ =>
    have hop : commandOf op = none := commandOf_eq_none.2 (by simpa [Instr.wellFormed] using hw)
    exact ⟨issue op n s, by simp only [exec, execReservedOp, hop]⟩
  | wrReadOnly off _ => exact ⟨s, if_pos hw⟩
  | wrReserved off _ => exact ⟨s, if_pos hw⟩
  | _ => exact ⟨_, rfl⟩

/-- Settles O5: an access that is not admitted is refused by name, and one that is admitted decodes to an instruction,
which completes. -/
theorem onlyAdmittedAccessesAreTaken : Obligations.OnlyAdmittedAccessesAreTaken := by
  rintro s a ⟨rest, hnext⟩
  rw [← admission_eq_none]
  constructor
  · rintro ⟨why, hrefused⟩ hadmitted
    have hdecode := decodeBus_eq_ok.2 ⟨hadmitted, rfl⟩
    obtain ⟨t, hexec⟩ := exec_completes (decodeBus_wellFormed hdecode) (withInputs rest s)
    rw [step_host hnext hdecode, hexec] at hrefused
    cases hrefused
  · intro hnot
    obtain ⟨why, hwhy⟩ := Option.ne_none_iff_exists'.1 hnot
    exact ⟨why, step_notAdmitted hnext hwhy⟩

/-! ## Reads -/

/-- Settles O8: a read is `readTo`, which writes `rdata` alone. -/
theorem readHasNoSideEffect : Obligations.ReadHasNoSideEffect :=
  fun off s h4 => ⟨readTo off.toNat s, exec_rd h4 s, rfl, rfl⟩

/-- The lanes of a word are the bytes it was made of, in stream order (R60). -/
theorem lane_wordOf (b0 b1 b2 b3 : Byte) :
    lane (wordOf b0 b1 b2 b3) 0 = b0 ∧ lane (wordOf b0 b1 b2 b3) 1 = b1 ∧
    lane (wordOf b0 b1 b2 b3) 2 = b2 ∧ lane (wordOf b0 b1 b2 b3) 3 = b3 := by
  simp (disch := decide) only [lane, wordOf, BitVec.extractLsb'_append_eq_of_le,
    BitVec.extractLsb'_append_eq_of_add_le]
  simp

/-- Lane j of word n of a block is its byte 4n+j (R61). -/
theorem lane_blockWord (b : Block) (n j : Fin 4) : lane (blockWord b n) j.val = b[4 * n.val + j.val] := by
  obtain ⟨h0, h1, h2, h3⟩ := lane_wordOf b[4 * n.val] b[4 * n.val + 1] b[4 * n.val + 2] b[4 * n.val + 3]
  match j with
  | 0 => exact h0
  | 1 => exact h1
  | 2 => exact h2
  | 3 => exact h3

/-- The words of IV in the map (R31). -/
theorem busRead_iv (s : State) (n : Fin 4) : busRead s (0x10 + 4 * n.val) = blockWord s.iv n := by
  fin_cases n <;> rfl

/-- The words of CHAIN in the map (R32). -/
theorem busRead_chain (s : State) (n : Fin 4) : busRead s (0x20 + 4 * n.val) = blockWord s.chain n := by
  fin_cases n <;> rfl

/-- Settles O11: the map shows each block word by word, and a word's lanes are the block's bytes in order. -/
theorem blockRegisterLanes : Obligations.BlockRegisterLanes := fun s n j =>
  ⟨by rw [busRead_iv, lane_blockWord], by rw [busRead_chain, lane_blockWord]⟩

/-! ## Accesses while a command is pending -/

/-- The frame of a bus operation of the host while BUSY: a write of CMD or of IVn is refused, so that of the machine
only CTRL, DIN, CERR and the pending bits can change. -/
theorem hostAccess_frame_of_busy {a : Access} {i : Instr} {s t : State} (hbusy : s.busy = true)
    (hd : decodeBus a = .ok i) (hexec : exec i s = .next t) :
    t = { s with
      ctrl := t.ctrl, din := t.din, cerr := t.cerr, cerrP := t.cerrP, cmplP := t.cmplP, doneP := t.doneP,
      errP := t.errP, rdata := t.rdata } := by
  obtain ⟨-, rfl⟩ | ⟨-, hwrite⟩ := hostAccess_cases hd hexec
  · rfl
  obtain ⟨-, rfl⟩ | ⟨-, rfl⟩ | ⟨-, rfl⟩ | ⟨n, -, rfl⟩ | ⟨-, rfl⟩ | rfl := hwrite
  · rfl
  · rfl
  · rw [issue_busy hbusy]; rfl
  · obtain ⟨hidle, -, -⟩ | ⟨-, hlocked⟩ := writeIv_cases n a.data s
    · simp [hbusy] at hidle
    · rw [hlocked]; rfl
  · rfl
  · rfl

/-- A host access that goes first keeps the completion from being next. -/
theorem not_completionIsNext_of_hostIsNext {s : State} {a : Access} (h : HostIsNext s a) : ¬CompletionIsNext s := by
  obtain ⟨rest, hnext⟩ := h
  rintro ⟨-, hempty | ⟨rest', hcompletion⟩⟩
  · simp [hnext] at hempty
  · simp [hnext] at hcompletion

/-- A step that goes on with a host access runs the instruction it decodes to. -/
theorem step_of_hostIsNext {s t : State} {a : Access} (hstep : step s = .next t) (h : HostIsNext s a) :
    ∃ rest i, decodeBus a = .ok i ∧ exec i (withInputs rest s) = .next t := by
  obtain ⟨rest, hnext⟩ := h
  cases hdecode : decodeBus a with
  | ok i => exact ⟨rest, i, rfl, step_host hnext hdecode ▸ hstep⟩
  | error why => simp [step_notAdmitted hnext (decodeBus_eq_error.1 hdecode)] at hstep

/-- Settles O42: the frame of an access while BUSY leaves the operation alone, and only a completion sets CMPL_P, DONE_P
or ERR_P. -/
theorem hostAccessesWhileBusyKeepTheOperation : Obligations.HostAccessesWhileBusyKeepTheOperation := by
  intro s t a hbusy hnext hstep
  obtain ⟨hcmpl, hdone, herr, -⟩ :=
    step_pendingBits_of_not_completion hstep (not_completionIsNext_of_hostIsNext hnext)
  obtain ⟨rest, i, hdecode, hexec⟩ := step_of_hostIsNext hstep hnext
  have hframe := hostAccess_frame_of_busy (s := withInputs rest s) hbusy hdecode hexec
  exact ⟨by rw [hframe]; rfl, hcmpl, hdone, herr⟩

end Sys2Proof.Proofs.Memory
end

section
/-! PROOFS. The encoding (spec/30_encoding.md): decoder and encoder undo each other on both formats, a row of format CMD
acts by its fields OP and N alone, a command with its wait is two steps, and no admitted access stops a run. -/

namespace Sys2Proof.Proofs.Encoding

open Sys2Proof Sys2Proof.Machine Sys2Proof.Claims Sys2Proof.Proofs.ArchState Sys2Proof.Proofs.Memory

/-! ## Format CMD: the rows of the eight commands, and RESERVED_OP -/

/-- The row of a command in the opcode table (R82). -/
def commandRow (c : Command) (n : BitVec 3) (r : BitVec 25) : Instr :=
  match c with
  | .nop => .nop n r
  | .initEnc => .initEnc n r
  | .initDec => .initDec n r
  | .push => .push n r
  | .final => .final n r
  | .pop => .pop n r
  | .abort => .abort n r
  | .clear => .clear n r

@[simp] theorem commandRow_wellFormed (c : Command) (n : BitVec 3) (r : BitVec 25) :
    (commandRow c n r).wellFormed = true := by cases c <;> rfl

@[simp] theorem commandRow_format (c : Command) (n : BitVec 3) (r : BitVec 25) :
    (commandRow c n r).format = .cmd := by cases c <;> rfl

theorem encode_commandRow (c : Command) (n : BitVec 3) (r : BitVec 25) :
    encode (commandRow c n r) = busWriteAt 0x0C (commandWord (opCode c) n r) := by cases c <;> rfl

theorem decodeCmd_commandWord (c : Command) (n : BitVec 3) (r : BitVec 25) :
    decodeCmd (commandWord (opCode c) n r) = commandRow c n r := by
  cases c <;> exact decodeCmd_command _ n r

/-- The instructions of format CMD are the rows of the commands and those of the reserved opcodes (R82, R86). -/
theorem cmdFormat_cases {i : Instr} (hw : i.wellFormed = true) (hf : i.format = .cmd) :
    (∃ c n r, i = commandRow c n r) ∨ (∃ op n r, commandOf op = none ∧ i = .reservedOp op n r) := by
  cases i with
  | nop n r => exact .inl ⟨.nop, n, r, rfl⟩
  | initEnc n r => exact .inl ⟨.initEnc, n, r, rfl⟩
  | initDec n r => exact .inl ⟨.initDec, n, r, rfl⟩
  | push n r => exact .inl ⟨.push, n, r, rfl⟩
  | final n r => exact .inl ⟨.final, n, r, rfl⟩
  | pop n r => exact .inl ⟨.pop, n, r, rfl⟩
  | abort n r => exact .inl ⟨.abort, n, r, rfl⟩
  | clear n r => exact .inl ⟨.clear, n, r, rfl⟩
  | reservedOp op n r => exact .inr ⟨op, n, r, commandOf_eq_none.2 (by simpa [Instr.wellFormed] using hw), rfl⟩
  | _ => cases hf

/-- Every word is the command word of its row (R81, R82, R88). -/
theorem decodeCmd_rows (w : Word) :
    (∃ c n r, w = commandWord (opCode c) n r ∧ decodeCmd w = commandRow c n r) ∨
    (∃ op n r, commandOf op = none ∧ w = commandWord op n r ∧ decodeCmd w = .reservedOp op n r) := by
  rw [← commandWord_fields w]
  cases hop : commandOf (cmdOp w) with
  | some c =>
    rw [← commandOf_eq_some.1 hop]
    exact .inl ⟨c, _, _, rfl, decodeCmd_commandWord c _ _⟩
  | none => exact .inr ⟨_, _, _, hop, rfl, decodeCmd_reserved hop _ _⟩

/-- A write of CMD, read as format CMD. -/
theorem decode_cmd_commandWrite (w : Word) : decode .cmd (busWriteAt 0x0C w) = .ok (decodeCmd w) := by
  simp only [decode, decodeBus_commandWrite]

/-- Read as format CMD, an access gives the row of some command word. -/
theorem decode_cmd_ok {a : Access} {i : Instr} (hd : decode .cmd a = .ok i) : ∃ w, i = decodeCmd w := by
  simp only [decode] at hd
  split at hd
  · next w _ => cases hd; exact ⟨w, rfl⟩
  · cases hd
  · cases hd

/-- An instruction of format CMD is read back from its command word. -/
theorem decode_encode_cmd {i : Instr} (hw : i.wellFormed = true) (hf : i.format = .cmd) :
    decode .cmd (encode i) = .ok i := by
  obtain ⟨c, n, r, rfl⟩ | ⟨op, n, r, hop, rfl⟩ := cmdFormat_cases hw hf
  · rw [encode_commandRow, decode_cmd_commandWrite, decodeCmd_commandWord]
  · rw [encode, decode_cmd_commandWrite, decodeCmd_reserved hop]

/-! ## Format BUS: the map of R89 -/

theorem decodeBus_write {off : Nat} (h : off < 128) (h4 : off % 4 = 0) (v : Word) :
    decodeBus (busWriteAt off v) = .ok (decodeWrite off v) :=
  decodeBus_eq_ok.2 ⟨admission_eq_none.2 ⟨rfl, h, h4⟩, rfl⟩

theorem decodeBus_read {off : Nat} (h : off < 128) (h4 : off % 4 = 0) (v : Word) :
    decodeBus ⟨.read, 32, off, v⟩ = .ok (.rd (BitVec.ofNat 7 off)) :=
  decodeBus_eq_ok.2 ⟨admission_eq_none.2 ⟨rfl, h, h4⟩, rfl⟩

/-- The row of a write to a read-only register. -/
theorem decodeBus_write_readOnly {off : Nat} (h : off ∈ readOnlyOffsets) (v : Word) :
    decodeBus (busWriteAt off v) = .ok (.wrReadOnly (BitVec.ofNat 7 off) v) := by
  simp only [readOnlyOffsets, List.mem_cons, List.not_mem_nil, or_false] at h
  obtain rfl | rfl | rfl | rfl | rfl | rfl | rfl | rfl | rfl | rfl | rfl | rfl := h <;>
    exact decodeBus_write (by decide) (by decide) v

/-- The row of a write to reserved space, which lies above the registers. -/
theorem decodeBus_write_reserved {off : Nat} (h : 0x50 ≤ off) (hlt : off < 128) (h4 : off % 4 = 0) (v : Word) :
    decodeBus (busWriteAt off v) = .ok (.wrReserved (BitVec.ofNat 7 off) v) := by
  obtain ⟨he, -⟩ | ⟨he, -⟩ | ⟨he, -⟩ | ⟨he, -⟩ | ⟨he, -⟩ | ⟨he, -⟩ | ⟨he, -⟩ | ⟨he, -⟩ | ⟨-, hrow⟩ :=
    decodeWrite_cases off v
  case inr.inr.inr.inr.inr.inr.inr.inr => rw [decodeBus_write hlt h4, hrow, if_pos h]
  all_goals omega

/-- Every row of the bus map is of format BUS. -/
theorem decodeBus_format {a : Access} {i : Instr} (hd : decodeBus a = .ok i) : i.format = .bus := by
  obtain ⟨-, rfl⟩ := decodeBus_eq_ok.1 hd
  cases a.dir with
  | read => rfl
  | write =>
    obtain ⟨-, he⟩ | ⟨-, he⟩ | ⟨-, he⟩ | ⟨-, he⟩ | ⟨-, he⟩ | ⟨-, he⟩ | ⟨-, he⟩ | ⟨-, he⟩ | ⟨-, he⟩ :=
      decodeWrite_cases a.off a.data <;> simp only [he]
    case inr.inr.inr.inr.inr.inr.inr.inr => split_ifs <;> rfl
    all_goals rfl

/-- An instruction of format BUS is read back from its access. -/
theorem decode_encode_bus {i : Instr} (hw : i.wellFormed = true) (hf : i.format = .bus) :
    decode .bus (encode i) = .ok i := by
  cases i with
  | rd off =>
    have h4 : off.toNat % 4 = 0 := by simpa [Instr.wellFormed, aligned] using hw
    simpa [decode, encode, busReadAt] using decodeBus_read off.isLt h4 0
  | wrReadOnly off v =>
    have hmem : off.toNat ∈ readOnlyOffsets := by simpa [Instr.wellFormed] using hw
    simpa [decode, encode] using decodeBus_write_readOnly hmem v
  | wrReserved off v =>
    obtain ⟨h4, hspace⟩ : off.toNat % 4 = 0 ∧ 0x50 ≤ off.toNat := by
      simpa [Instr.wellFormed, inReservedSpace, aligned] using hw
    simpa [decode, encode] using decodeBus_write_reserved hspace off.isLt h4 v
  | wrCtrl v | wrStatus v | cmd v | wrIv0 v | wrIv1 v | wrIv2 v | wrIv3 v | wrDin v =>
    exact decodeBus_write (by decide) (by decide) v
  | _ => cases hf

/-! ## Decoding and encoding -/

/-- Settles O1, format by format. -/
theorem decodeInvertsEncode : Obligations.DecodeInvertsEncode := by
  intro i hw
  cases hf : i.format with
  | bus => exact decode_encode_bus hw hf
  | cmd => exact decode_encode_cmd hw hf

/-- Settles O2: a word is the command word of the row it decodes to, which is that of a command or of a reserved
opcode. -/
theorem everyCommandWordDecodesWithoutLoss : Obligations.EveryCommandWordDecodesWithoutLoss := by
  intro w
  obtain ⟨c, n, r, hw, hrow⟩ | ⟨op, n, r, hop, hw, hrow⟩ := decodeCmd_rows w <;> rw [hrow, hw]
  · exact ⟨commandRow_wellFormed c n r, commandRow_format c n r, encode_commandRow c n r⟩
  · exact ⟨decide_eq_true (commandOf_eq_none.1 hop), rfl, rfl⟩

/-- Settles O3: the rows of the bus map are instructions of format BUS, and what format CMD reads is the row of a command
word. -/
theorem decodedInstructionsAreWellFormed : Obligations.DecodedInstructionsAreWellFormed := by
  intro f a i hd
  cases f with
  | bus => exact ⟨decodeBus_wellFormed hd, decodeBus_format hd⟩
  | cmd =>
    obtain ⟨w, rfl⟩ := decode_cmd_ok hd
    obtain ⟨hw, hf, -⟩ := everyCommandWordDecodesWithoutLoss w
    exact ⟨hw, hf⟩

/-- Settles O4: the sample words are evaluated, the accesses follow the rows of the map. -/
theorem tableWordsDecode : Obligations.TableWordsDecode := by
  refine ⟨rfl, rfl, rfl, rfl, rfl, rfl, rfl, rfl, rfl, fun v => ⟨?_, ?_, ?_, ?_, ?_, ?_, ?_, ?_⟩,
    fun v _ hmem => decodeBus_write_readOnly hmem v,
    fun v _ hlow hhigh h4 => decodeBus_write_reserved hlow (by omega) h4 v,
    fun v _ hhigh h4 => decodeBus_read (by omega) h4 v⟩
  all_goals exact decodeBus_write (by decide) (by decide) v

/-! ## The meaning of a row of format CMD -/

/-- What a row of format CMD does, by its fields: the two steps of the command OP names, and where OP names none, the
refused write. -/
def rowStep (op : BitVec 4) (n : BitVec 3) (s : State) : State :=
  match commandOf op with
  | some c => commandStep c n (fun d => commandEffect Config.cipher ⟨c, n, d⟩) s
  | none => issue op n s

/-- The meaning of a command's row: its completion applies the effect of R108's table. -/
theorem exec_commandRow (c : Command) (n : BitVec 3) (r : BitVec 25) (s : State) :
    exec (commandRow c n r) s = .next (rowStep (opCode c) n s) := by
  cases c <;> rfl

/-- The meaning of the row RESERVED_OP: the write, which is refused. -/
theorem exec_reservedOp {op : BitVec 4} (h : commandOf op = none) (n : BitVec 3) (r : BitVec 25) (s : State) :
    exec (.reservedOp op n r) s = .next (issue op n s) := by
  simp only [exec, execReservedOp, h]

/-- The row a word decodes to acts by OP and N alone (R87). -/
theorem exec_decodeCmd (w : Word) (s : State) : exec (decodeCmd w) s = .next (rowStep (cmdOp w) (cmdN w) s) := by
  obtain ⟨c, n, r, hw, hrow⟩ | ⟨op, n, r, hop, hw, hrow⟩ := decodeCmd_rows w <;>
    rw [hrow, hw, cmdOp_commandWord, cmdN_commandWord]
  · exact exec_commandRow c n r s
  · rw [exec_reservedOp hop, rowStep, hop]

/-- Where the command OP names is not the pending one, the row is the write of CMD. -/
theorem rowStep_of_not_awaits {op : BitVec 4} {n : BitVec 3} {s : State}
    (h : ¬∃ c d, Awaits s c n d ∧ opCode c = op) : rowStep op n s = issue op n s := by
  cases hop : commandOf op with
  | none => simp only [rowStep, hop]
  | some c =>
    have hcode := commandOf_eq_some.1 hop
    simp only [rowStep, hop]
    rw [commandStep_issue _ fun ⟨d, hawaits⟩ => h ⟨c, d, hawaits, hcode⟩, hcode]

/-- The mask 0x7F keeps OP. -/
theorem cmdOp_and_mask (w : Word) : cmdOp (w &&& 0x7F#32) = cmdOp w := by
  simp only [cmdOp, BitVec.extractLsb'_and]
  exact BitVec.and_allOnes

/-- The mask 0x7F keeps N. -/
theorem cmdN_and_mask (w : Word) : cmdN (w &&& 0x7F#32) = cmdN w := by
  simp only [cmdN, BitVec.extractLsb'_and]
  exact BitVec.and_allOnes

/-- Settles O6: both meanings read OP and N only, and the mask keeps these. -/
theorem reservedCommandBitsChangeNothing : Obligations.ReservedCommandBitsChangeNothing := by
  intro w s
  rw [exec_decodeCmd, exec_decodeCmd]
  simp only [exec, execCmd, cmdOp_and_mask, cmdN_and_mask, and_self]

/-- Settles O21: the row acts as `rowStep`, which completes a command only where it is the pending one. -/
theorem commandRowNotPendingIsItsWrite : Obligations.CommandRowNotPendingIsItsWrite := by
  intro w s hnot
  rw [exec_decodeCmd, rowStep_of_not_awaits hnot]
  rfl

/-- Settles O22: the row is the write, and check 1 (BUSY) comes before check 2. -/
theorem reservedOpcodeIsRefused : Obligations.ReservedOpcodeIsRefused := by
  intro op n r s hreserved
  have hop : commandOf op = none := commandOf_eq_none.2 hreserved
  rw [exec_reservedOp hop]
  exact ⟨fun hbusy => congrArg _ (issue_reserved hbusy hop n), fun hbusy => congrArg _ (issue_busy hbusy op n)⟩

/-- A term that is no instruction is refused, in every state (notes/assumptions/6.md). -/
theorem exec_illFormed {i : Instr} (hw : ¬i.wellFormed = true) (s : State) : ∃ why, exec i s = .refused why := by
  cases i with
  | rd off => exact ⟨_, if_neg hw⟩
  | reservedOp op n r =>
    cases hop : commandOf op with
    | some c => exact ⟨.illFormed, by simp only [exec, execReservedOp, hop]⟩
    | none => exact absurd (decide_eq_true (commandOf_eq_none.1 hop)) hw
  | wrReadOnly off v => exact ⟨_, if_neg hw⟩
  | wrReserved off v => exact ⟨_, if_neg hw⟩
  | _ => exact absurd rfl hw

/-- Settles O18: an instruction completes, and any other term is refused. -/
theorem execCompletesOnEveryInstruction : Obligations.ExecCompletesOnEveryInstruction := by
  refine fun i s => ⟨fun ⟨t, hnext⟩ => ?_, fun hw => exec_completes hw s⟩
  by_contra hw
  obtain ⟨why, hrefused⟩ := exec_illFormed hw s
  rw [hnext] at hrefused
  cases hrefused

/-! ## A command with its wait -/

theorem accepts_iff {c : Command} {n : BitVec 3} {s : State} :
    accepts c n s = true ↔ s.busy = false ∧ commandFault c n s = .none := by
  simp [accepts]

/-- An accepted command with its wait: the acceptance, then the completion (R91). -/
theorem commandWait_accepted {op : Command} {n : BitVec 3} {s : State} (h : accepts op n s = true) (c : Cipher) :
    commandWait c op n s = complete c ⟨op, n, s.din⟩ (accept op n s) := by
  obtain ⟨hbusy, hfault⟩ := accepts_iff.1 h
  simp only [commandWait, h, issue_accepted hbusy (commandOf_opCode op) hfault]
  rfl

/-- A refused command with its wait is its write. -/
theorem commandWait_refused {op : Command} {n : BitVec 3} {s : State} (h : accepts op n s = false) (c : Cipher) :
    commandWait c op n s = issue (opCode op) n s := by
  simp only [commandWait, h]

/-- Settles O37: the first step accepts, the second completes, and the completion does not touch the orders to come. -/
theorem twoStepsAreACommandWithWait : Obligations.TwoStepsAreACommandWithWait := by
  intro s w c rest hop hinputs haccepts
  obtain ⟨hbusy, hfault⟩ := accepts_iff.1 haccepts
  have hissue : issue (cmdOp w) (cmdN w) (withInputs (.completion :: rest) s) =
      withInputs (.completion :: rest) (accept c (cmdN w) s) := issue_accepted hbusy hop hfault
  have hwrite : step s = .next (withInputs (.completion :: rest) (accept c (cmdN w) s)) := by
    rw [step_host hinputs (decodeBus_commandWrite w), ← hissue]
    rfl
  have hcompletion := step_completion (s := withInputs (.completion :: rest) (accept c (cmdN w) s)) rfl rfl
    (.inr ⟨rest, rfl⟩)
  calc Sys2Proof.core.run 2 s
    _ = .next (complete Config.cipher ⟨c, cmdN w, s.din⟩ (withInputs rest (accept c (cmdN w) s))) := by
      rw [run_of_next hwrite, run_of_next hcompletion]
      rfl
    _ = .next (withInputs rest (commandWait Config.cipher c (cmdN w) s)) := by
      rw [complete_withInputs, commandWait_accepted haccepts]

/-! ## The count N -/

/-- The values of N that PUSH and POP refuse. -/
theorem countLegal_eq_false {n : BitVec 3} : countLegal n = false ↔ n = 0 ∨ 5 ≤ n.toNat := by
  revert n; decide

/-- A command that does not use N is checked alike for every N. -/
theorem commandFault_count {c : Command} (hc : usesCount c = false) (n m : BitVec 3) (s : State) :
    commandFault c n s = commandFault c m s := by
  cases c with
  | push | pop => cases hc
  | nop | initEnc | initDec | final | abort | clear => rfl

/-- Check 3 of R105. -/
theorem commandFault_badCount {c : Command} {n : BitVec 3} (hc : usesCount c = true) (hn : countLegal n = false)
    (s : State) : commandFault c n s = .badCount := by
  simp [commandFault, hc, hn]

/-- FINAL in ENC neither reads nor changes BUSY, PEND and DIN. -/
theorem finalEnc_accept (cipher : Cipher) (c : Command) (n : BitVec 3) (s : State) :
    finalEnc cipher (accept c n s) = accept c n (finalEnc cipher s) := by
  simp only [finalEnc, encBlock, fifoPush, accept]

/-- FINAL in DEC neither reads nor changes BUSY, PEND and DIN. -/
theorem finalDec_accept (c : Command) (n : BitVec 3) (s : State) :
    finalDec (accept c n s) = accept c n (finalDec s) := by
  obtain ⟨hcnt, heq⟩ | ⟨hcnt, hhbv, heq⟩ | ⟨hcnt, hhbv, hpad, heq⟩ | ⟨hcnt, hhbv, hpad, heq⟩ :=
    finalDec_cases s <;> rw [heq] <;> simp [finalDec, *] <;> rfl

theorem finalOp_accept (cipher : Cipher) (c : Command) (n : BitVec 3) (s : State) :
    finalOp cipher (accept c n s) = accept c n (finalOp cipher s) := by
  by_cases hs : s.state = .enc
  · simp only [finalOp, accept_state, hs, if_true, finalEnc_accept]
  · simp only [finalOp, accept_state, hs, if_false, finalDec_accept]

/-- The completion of a command that does not use N gives the same state whatever N was latched at its acceptance. -/
theorem complete_accept_count {op : Command} (hc : usesCount op = false) (cipher : Cipher) (n m : BitVec 3) (d : Word)
    (s : State) :
    complete cipher ⟨op, n, d⟩ (accept op n s) = complete cipher ⟨op, m, d⟩ (accept op m s) := by
  cases op with
  | push | pop => cases hc
  | final => simp only [complete, commandEffect, finalOp_accept]; rfl
  | nop | initEnc | initDec | abort | clear => rfl

/-- A command that does not use N is alike for every N, with its wait (R83). -/
theorem commandWait_count {op : Command} (hc : usesCount op = false) (cipher : Cipher) (n m : BitVec 3) (s : State) :
    commandWait cipher op n s = commandWait cipher op m s := by
  have hfault := commandFault_count hc n m s
  have haccepts : accepts op n s = accepts op m s := by simp only [accepts, hfault]
  cases hm : accepts op m s with
  | true =>
    rw [commandWait_accepted (haccepts.trans hm), commandWait_accepted hm]
    exact complete_accept_count hc cipher n m s.din s
  | false =>
    rw [commandWait_refused (haccepts.trans hm), commandWait_refused hm]
    cases hbusy : s.busy with
    | true => rw [issue_busy hbusy, issue_busy hbusy]
    | false =>
      have hrefused : commandFault op m s ≠ .none := fun h => by simp [accepts_iff.2 ⟨hbusy, h⟩] at hm
      rw [issue_refused hbusy (commandOf_opCode op) (hfault ▸ hrefused),
        issue_refused hbusy (commandOf_opCode op) hrefused, hfault]

/-- A write of PUSH or POP with an N outside 1 to 4 is refused with BAD_COUNT. -/
theorem issue_badCount {op : BitVec 4} {c : Command} {n : BitVec 3} {s : State} (hbusy : s.busy = false)
    (hop : commandOf op = some c) (hc : usesCount c = true) (hn : countLegal n = false) :
    issue op n s = cmdError .badCount s := by
  have hfault := commandFault_badCount hc hn s
  rw [issue_refused hbusy hop (by simp [hfault]), hfault]

/-- Settles O7: PUSH and POP are the commands that use N, and an N outside 1 to 4 fails their check 3. -/
theorem countIsReadByPushAndPopOnly : Obligations.CountIsReadByPushAndPopOnly := by
  refine ⟨fun cipher op n m s hpush hpop => ?_, fun w s hbusy hop hn => ?_⟩
  · exact commandWait_count (by simp [usesCount, hpush, hpop]) cipher n m s
  · have hillegal := countLegal_eq_false.2 hn
    rcases hop with hop | hop
    · exact congrArg Host.Outcome.next (issue_badCount (c := .push) hbusy (by rw [hop]; rfl) rfl hillegal)
    · exact congrArg Host.Outcome.next (issue_badCount (c := .pop) hbusy (by rw [hop]; rfl) rfl hillegal)

/-! ## Runs of admitted accesses -/

/-- Each step takes one order off the list, and adds none. -/
theorem step_inputs {s t : State} (hstep : step s = .next t) : t.inputs = s.inputs.tail := by
  obtain ⟨a, rest, i, hinputs, hdecode, hexec⟩ | ⟨p, -, -, -, rfl⟩ | ⟨rest, hinputs, rfl⟩ | ⟨-, -, rfl⟩ :=
    step_cases hstep
  · rw [hostAccess_frame hdecode hexec, hinputs]; rfl
  · rw [complete_withInputs]; rfl
  · rw [hinputs]; rfl
  · rfl

/-- A state with the invariant whose next access is admitted steps on: the access decodes to an instruction, and where
BUSY = 1 a command is pending (R49 (f)). -/
theorem step_next_of_admitted {s : State} (hinv : StepInv s) (hadmitted : Admitted s.inputs) :
    ∃ t, step s = .next t := by
  have quiet (hi : s.inputs = [] ∨ ∃ rest, s.inputs = .completion :: rest) : ∃ t, step s = .next t := by
    cases hbusy : s.busy with
    | false => exact ⟨_, step_wait hbusy hi⟩
    | true =>
      obtain ⟨p, hp⟩ := Option.isSome_iff_exists.1 (hinv.pending.symm.trans hbusy)
      exact ⟨_, step_completion hbusy hp hi⟩
  cases hinputs : s.inputs with
  | nil => exact quiet (.inl hinputs)
  | cons e rest =>
    cases e with
    | completion => exact quiet (.inr ⟨rest, hinputs⟩)
    | reset => exact ⟨_, step_reset hinputs⟩
    | host a =>
      have hdecode := decodeBus_eq_ok.2 ⟨hadmitted a (by simp [hinputs]), rfl⟩
      rw [step_host hinputs hdecode]
      exact exec_completes (decodeBus_wellFormed hdecode) _

/-- Settles O40, by induction on the number of steps: each one goes on, keeps the invariant and adds no order. -/
theorem admittedRunsNeverStop : Obligations.AdmittedRunsNeverStop := by
  intro k
  induction k with
  | zero => exact fun s hinv hadmitted => ⟨s, rfl, hinv, hadmitted⟩
  | succ k ih =>
    intro s hinv hadmitted
    obtain ⟨t, hstep⟩ := step_next_of_admitted hinv hadmitted
    have hadmitted' : Admitted t.inputs := fun a ha =>
      hadmitted a (List.mem_of_mem_tail (step_inputs hstep ▸ ha))
    rw [run_of_next hstep]
    exact ih t (everyStepKeepsTheInvariant s t hinv hstep) hadmitted'

end Sys2Proof.Proofs.Encoding
end

section
/-! PROOFS. The host's writes and the issue of commands (spec/40_command_issue.md): what each register write stores, when
a write of CMD is accepted and with which code it is refused, and what the completion of an accepted command runs. -/

namespace Sys2Proof.Proofs.CommandIssue

open Sys2Proof Sys2Proof.Machine Sys2Proof.Claims Sys2Proof.Proofs.ArchState

/-! ## The checks of a write of CMD, in their order (R105) -/

/-- Of the checks l, in order, e is the code of the first that fails; `.none` where none does. -/
def FirstFailed : List (Prop × CmdErr) → CmdErr → Prop
  | [], e => e = .none
  | (failed, code) :: l, e => (failed ∧ e = code) ∨ (¬failed ∧ FirstFailed l e)

/-- The first failed check by its place in the list. -/
theorem firstFailed_getElem {l : List (Prop × CmdErr)} {k : Nat} (hk : k < l.length)
    (hpass : ∀ (j : Nat) (hj : j < k), ¬l[j].1) (hfail : l[k].1) : FirstFailed l l[k].2 := by
  induction l generalizing k with
  | nil => simp at hk
  | cons check l ih =>
    cases k with
    | zero => exact .inl ⟨hfail, rfl⟩
    | succ k =>
      have hpass' : ∀ (j : Nat) (hj : j < k), ¬(l[j]'(by simp at hk; omega)).1 :=
        fun j hj => hpass (j + 1) (by omega)
      exact .inr ⟨hpass 0 (by omega), ih (by simpa using hk) hpass' hfail⟩

/-- Where every check passes, there is no code. -/
theorem firstFailed_none {l : List (Prop × CmdErr)} (hpass : ∀ check ∈ l, ¬check.1) : FirstFailed l .none := by
  induction l with
  | nil => rfl
  | cons check l ih =>
    exact .inr ⟨hpass check (by simp), ih fun check' hmem => hpass check' (by simp [hmem])⟩

/-- Checks 3 to 8 of R105, those that depend on the command. -/
def commandChecks (c : Command) (n : BitVec 3) (s : State) : List (Prop × CmdErr) :=
  (failedChecks (opCode c) n s).drop 2

/-- The legal counts (R83). -/
theorem countLegal_iff {n : BitVec 3} : countLegal n = true ↔ 1 ≤ n.toNat ∧ n.toNat ≤ 4 := by simp [countLegal]

section
variable (c : Command) (n : BitVec 3) (s : State)

/-- Check 3: a count outside 1 to 4. -/
theorem badCount_iff : (usesCount c && !countLegal n) = true ↔
    (opCode c = 3 ∨ opCode c = 5) ∧ ¬(1 ≤ n.toNat ∧ n.toNat ≤ 4) := by
  rw [← countLegal_iff]
  cases c <;> simp [usesCount, opCode]

/-- Check 4: a command that is not legal in STATE (R111). -/
theorem badState_iff : (!legalIn c s.state) = true ↔
    (opCode c = 1 ∨ opCode c = 2) ∧ s.state ≠ .idle ∨
    (opCode c = 3 ∨ opCode c = 4) ∧ s.state ≠ .enc ∧ s.state ≠ .dec ∨
    opCode c = 6 ∧ (s.state = .idle ∨ s.state = .error) ∨
    opCode c = 7 ∧ (s.state = .enc ∨ s.state = .dec) := by
  cases c <;> cases s.state <;> decide

/-- Check 5: an INIT without all four IV words written (R112). -/
theorem noIv_iff : (isInit c && s.ivw != 0b1111#4) = true ↔
    (opCode c = 1 ∨ opCode c = 2) ∧ s.ivw ≠ 0b1111#4 := by
  cases c <;> simp [isInit, opCode]

/-- How many bytes a PUSH that completes a block outputs. -/
theorem emitSize_eq : emitSize s = if s.state = .enc ∨ s.hbv = true then 16 else 0 := by
  by_cases hs : s.state = .enc <;> simp [emitSize, hs]

/-- There is room for a PUSH that completes no block, or whose output fits. -/
theorem hasRoom_push : hasRoom .push n s = true ↔
    (16 ≤ s.cnt.val + n.toNat → s.ofifo.length + emitSize s ≤ Config.ofifoDepth) := by
  simp [hasRoom, completesBlock, imp_iff_not_or]

/-- Check 6: no room for the command's output (R113). -/
theorem outFull_iff : (!hasRoom c n s) = true ↔
    opCode c = 3 ∧ 16 ≤ s.cnt.val + n.toNat ∧
      32 < s.ofifo.length + (if s.state = .enc ∨ s.hbv = true then 16 else 0) ∨
    opCode c = 4 ∧ 16 < s.ofifo.length := by
  rw [← emitSize_eq]
  cases c with
  | push =>
    rw [Bool.not_eq_true', ← Bool.not_eq_true, hasRoom_push]
    simp [opCode, Config.ofifoDepth]
  | final => simp [hasRoom, opCode, Config.ofifoDepth]
  | _ => simp [hasRoom, opCode]

/-- Check 7: a POP of more bytes than the FIFO holds (R114). -/
theorem outEmpty_iff : (c == .pop && decide (s.ofifo.length < n.toNat)) = true ↔
    opCode c = 5 ∧ s.ofifo.length < n.toNat := by
  cases c <;> simp [opCode]

/-- Check 8: a CLEAR in DONE before the output is drained (R115). -/
theorem notDrained_iff : (c == .clear && s.state == .done && !s.ofifo.isEmpty) = true ↔
    opCode c = 7 ∧ s.state = .done ∧ s.ofifo ≠ [] := by
  cases c <;> simp [opCode]

end

/-- The machine's checks 3 to 8 give the code of the first that fails. -/
theorem commandFault_of_firstFailed {c : Command} {n : BitVec 3} {s : State} {e : CmdErr}
    (h : FirstFailed (commandChecks c n s) e) : commandFault c n s = e := by
  simp only [commandChecks, failedChecks, List.drop_succ_cons, List.drop_zero, FirstFailed, ← badCount_iff,
    ← badState_iff, ← noIv_iff, ← outFull_iff, ← outEmpty_iff, ← notDrained_iff] at h
  unfold commandFault
  obtain ⟨h3, rfl⟩ | ⟨h3, ⟨h4, rfl⟩ | ⟨h4, ⟨h5, rfl⟩ | ⟨h5, ⟨h6, rfl⟩ | ⟨h6, ⟨h7, rfl⟩ | ⟨h7, ⟨h8, rfl⟩ |
    ⟨h8, rfl⟩⟩⟩⟩⟩⟩ := h
  · rw [if_pos h3]
  · rw [if_neg h3, if_pos h4]
  · rw [if_neg h3, if_neg h4, if_pos h5]
  · rw [if_neg h3, if_neg h4, if_neg h5, if_pos h6]
  · rw [if_neg h3, if_neg h4, if_neg h5, if_neg h6, if_pos h7]
  · rw [if_neg h3, if_neg h4, if_neg h5, if_neg h6, if_neg h7, if_pos h8]
  · rw [if_neg h3, if_neg h4, if_neg h5, if_neg h6, if_neg h7, if_neg h8]

/-- A write of CMD is refused with the code of the first check that fails, BUSY and RESERVED_OP first. -/
theorem issue_of_firstFailed {op : BitVec 4} {n : BitVec 3} {s : State} {e : CmdErr}
    (h : FirstFailed (failedChecks op n s) e) (he : e ≠ .none) : issue op n s = cmdError e s := by
  obtain ⟨hbusy, rfl⟩ | ⟨hbusy, ⟨hreserved, rfl⟩ | ⟨hreserved, hrest⟩⟩ := h
  · exact issue_busy hbusy op n
  · exact issue_reserved (eq_false_of_ne_true hbusy) (commandOf_eq_none.2 hreserved) n
  · cases hop : commandOf op with
    | none => exact absurd (commandOf_eq_none.1 hop) hreserved
    | some c =>
      obtain rfl := commandOf_eq_some.1 hop
      have hfault : commandFault c n s = e := commandFault_of_firstFailed hrest
      rw [issue_refused (eq_false_of_ne_true hbusy) hop (hfault ▸ he), hfault]

/-- No check of R105 fails with the code 0. -/
theorem failedChecks_code_ne_none (op : BitVec 4) (n : BitVec 3) (s : State) (k : Fin 8) :
    (failedChecks op n s)[k].2 ≠ .none := by
  fin_cases k <;> exact nofun

/-- Settles O20: the check at place k is the first that fails, and its code is the one the write is refused with. -/
theorem firstFailingCheckRefuses : Obligations.FirstFailingCheckRefuses := by
  intro w s k hpass hfail
  have hfirst : FirstFailed (failedChecks (cmdOp w) (cmdN w) s) (failedChecks (cmdOp w) (cmdN w) s)[k].2 :=
    firstFailed_getElem k.isLt (fun j hj => hpass ⟨j, hj.trans k.isLt⟩ hj) hfail
  exact congrArg Host.Outcome.next (issue_of_firstFailed hfirst (failedChecks_code_ne_none _ _ s k))

/-! ## Acceptance -/

/-- A command whose own conditions hold fails none of checks 3 to 8. -/
theorem commandChecks_pass {c : Command} {n : BitVec 3} {s : State} (h : AcceptedWhen c n s) :
    ∀ check ∈ commandChecks c n s, ¬check.1 := by
  simp only [commandChecks, failedChecks, List.drop_succ_cons, List.drop_zero, List.forall_mem_cons]
  cases c with
  | nop => simp [opCode]
  | initEnc | initDec =>
    obtain ⟨hidle, hivw⟩ := h
    simp [opCode, hidle, hivw]
  | push =>
    obtain ⟨hlow, hhigh, hstate, hroom⟩ := h
    have hdec : s.state ≠ .enc → s.state = .dec := hstate.resolve_left
    simpa [opCode, hlow, hhigh] using And.intro hdec hroom
  | final =>
    obtain ⟨hstate, hroom⟩ := h
    have hdec : s.state ≠ .enc → s.state = .dec := hstate.resolve_left
    simpa [opCode, hroom] using hdec
  | pop =>
    obtain ⟨hlow, hhigh, hheld⟩ := h
    simp [opCode, hlow, hhigh, hheld]
  | abort =>
    obtain hstate | hstate | hstate := h <;> simp [opCode, hstate]
  | clear =>
    obtain hstate | hstate | ⟨hstate, hempty⟩ := h <;> simp [opCode, *]

/-- The machine's checks 3 to 8 let a command pass whose own conditions hold. -/
theorem commandFault_of_acceptedWhen {c : Command} {n : BitVec 3} {s : State} (h : AcceptedWhen c n s) :
    commandFault c n s = .none :=
  commandFault_of_firstFailed (firstFailed_none (commandChecks_pass h))

/-- Settles O19: with BUSY = 0 and checks 3 to 8 passed, the write is `accept`. -/
theorem acceptedCommandIsLatched : Obligations.AcceptedCommandIsLatched :=
  fun _ _ _ hop hbusy h =>
    congrArg Host.Outcome.next (issue_accepted hbusy hop (commandFault_of_acceptedWhen h))

/-! ## The completion step -/

/-- Settles O34: the completion step is Complete(), by the law `step_completion`, and so is the row that the pending
command's OP and N decode to. -/
theorem stepCompletesThePendingCommand : Obligations.StepCompletesThePendingCommand := by
  rintro s p hp ⟨hbusy, hnext⟩
  have hstep := step_completion hbusy hp hnext
  have hrow := exec_pendWord (s := withInputs s.inputs.tail s) hbusy hp
  exact ⟨hstep.trans hrow.symm, hstep⟩

/-! ## Writes of IV -/

/-- Byte k of a block one word of which is replaced. -/
theorem setBlockWord_get (b : Block) (n : Fin 4) (v : Word) (k : Fin 16) :
    (setBlockWord b n v)[k] = if k.val / 4 = n.val then lane v (k.val % 4) else b[k] := by
  simp [setBlockWord, lane, byteOf]

/-- Bit b of IVW with bit n set. -/
theorem getLsbD_or_bit (ivw : BitVec 4) (n b : Fin 4) :
    (ivw ||| BitVec.ofNat 4 (2 ^ n.val)).getLsbD b.val = (decide (b = n) || ivw.getLsbD b.val) := by
  rw [BitVec.getLsbD_or, BitVec.getLsbD_ofNat, Nat.testBit_two_pow]
  simp [Fin.ext_iff, Bool.or_comm, eq_comm]

/-- The rows of IV0 to IV3. -/
theorem exec_ivRow {v : Word} {n : Fin 4} {i : Instr}
    (h : (n, i) ∈ [((0 : Fin 4), Instr.wrIv0 v), (1, .wrIv1 v), (2, .wrIv2 v), (3, .wrIv3 v)]) (s : State) :
    exec i s = .next (writeIv n v s) := by
  simp only [List.mem_cons, Prod.mk.injEq, List.not_mem_nil, or_false] at h
  obtain ⟨rfl, rfl⟩ | ⟨rfl, rfl⟩ | ⟨rfl, rfl⟩ | ⟨rfl, rfl⟩ := h <;> rfl

/-- Settles O17: the two cases of a write of IVn exclude each other. -/
theorem ivWriteStoresOrIsLocked : Obligations.IvWriteStoresOrIsLocked := by
  intro v n i s hrow
  rw [exec_ivRow hrow]
  obtain ⟨hbusy, hidle, heq⟩ | ⟨hlocked, heq⟩ := writeIv_cases n v s <;> rw [heq]
  · refine ⟨fun _ => ⟨storeIv n v s, rfl, setBlockWord_get s.iv n v, getLsbD_or_bit s.ivw n, rfl⟩, ?_⟩
    rintro (hbusy' | hidle')
    · simp [hbusy] at hbusy'
    · exact absurd hidle hidle'
  · refine ⟨?_, fun _ => rfl⟩
    rintro ⟨hbusy, hidle⟩
    simp [hbusy, hidle] at hlocked

/-- A bus operation of the host that changes IV is a write of IVn in IDLE with BUSY = 0. -/
theorem hostAccess_iv {a : Access} {i : Instr} {s t : State} (hd : decodeBus a = .ok i) (hexec : exec i s = .next t)
    (hne : t.iv ≠ s.iv) :
    s.state = .idle ∧ s.busy = false ∧ a.dir = .write ∧ ∃ n : Fin 4, a.off = 0x10 + 4 * n.val := by
  obtain ⟨-, rfl⟩ | ⟨hdir, hwrite⟩ := hostAccess_cases hd hexec
  · exact absurd rfl hne
  obtain ⟨-, rfl⟩ | ⟨-, rfl⟩ | ⟨-, rfl⟩ | ⟨n, hoff, rfl⟩ | ⟨-, rfl⟩ | rfl := hwrite
  · exact absurd rfl hne
  · exact absurd rfl hne
  · obtain ⟨c, -, -, -, heq⟩ | ⟨e, -, heq⟩ := issue_cases (cmdOp a.data) (cmdN a.data) s <;>
      exact absurd (congrArg State.iv heq) hne
  · obtain ⟨hbusy, hidle, -⟩ | ⟨-, heq⟩ := writeIv_cases n a.data s
    · exact ⟨hidle, hbusy, hdir, n, hoff⟩
    · exact absurd (congrArg State.iv heq) hne
  · exact absurd rfl hne
  · exact absurd rfl hne

/-- The offsets of IV0 to IV3. -/
theorem ivOffset_mem (n : Fin 4) : 0x10 + 4 * n.val ∈ [0x10, 0x14, 0x18, 0x1C] := by
  revert n; decide

/-- Settles O46: of the steps other than a reset, completions and waiting keep IV, and a host access changes it only by a
write of IVn that is not locked. -/
theorem ivIsLockedDuringAnOperation : Obligations.IvIsLockedDuringAnOperation := by
  intro s t hstep hne
  obtain ⟨a, rest, i, hnext, hdecode, hexec⟩ | ⟨p, -, -, -, rfl⟩ | ⟨rest, hreset, -⟩ | ⟨-, -, rfl⟩ :=
    step_cases hstep
  · obtain ⟨hidle, hbusy, hdir, n, hoff⟩ := hostAccess_iv hdecode hexec hne
    exact .inr ⟨hidle, hbusy, a, ⟨rest, hnext⟩, hdir, hoff ▸ ivOffset_mem n⟩
  · have hkeep : (commandEffect Config.cipher p (withInputs s.inputs.tail s)).iv = s.iv := by
      rw [commandEffect_frame]; rfl
    exact absurd hkeep hne
  · exact .inl ⟨rest, hreset⟩
  · exact absurd rfl hne

/-! ## The other register writes -/

/-- The value of the four bits that CTRL keeps of a word (R102). -/
theorem writeCtrl_ctrl_toNat (v : Word) (s : State) : (writeCtrl v s).ctrl.toNat = v.toNat % 16 := by
  simp [BitVec.extractLsb'_toNat]

/-- Settles O14: the rows are `writeCtrl` and `writeDin`, each of which writes one field. -/
theorem ctrlAndDinWritesStore : Obligations.CtrlAndDinWritesStore := fun v s =>
  ⟨⟨writeCtrl v s, rfl, writeCtrl_ctrl_toNat v s, rfl⟩, ⟨writeDin v s, rfl, rfl, rfl⟩⟩

/-- A bit under write-1-to-clear. -/
theorem and_not_eq_ite (bit clear : Bool) : (bit && !clear) = if clear then false else bit := by
  cases clear <;> simp

/-- Settles O15: the row is `clearPending`, which clears each pending bit by its bit of the word. -/
theorem statusWriteClearsPendingBits : Obligations.StatusWriteClearsPendingBits := fun v s =>
  ⟨clearPending v s, rfl, and_not_eq_ite _ _, and_not_eq_ite _ _, and_not_eq_ite _ _, and_not_eq_ite _ _, rfl, rfl⟩

/-- Settles O16: at the offsets of R109 and R110 the rows are instructions, and they answer the state itself. -/
theorem ignoredWritesChangeNothing : Obligations.IgnoredWritesChangeNothing := by
  intro off v s
  constructor
  · intro hmem
    have hreadOnly : readOnlyOffsets.contains off.toNat = true := List.contains_iff_mem.2 hmem
    exact if_pos hreadOnly
  · intro hlow h4
    have hreserved : inReservedSpace off = true := by simp [inReservedSpace, aligned, h4, hlow]
    exact if_pos hreserved

end Sys2Proof.Proofs.CommandIssue
end

section
/-! PROOFS. The session commands (spec/41_session_commands.md): the row of a pending command completes it by its line of
R108's table, and what that line is for NOP, INIT_ENC, INIT_DEC, ABORT and CLEAR, with all that it keeps. -/

namespace Sys2Proof.Proofs.SessionCommands

open Sys2Proof Sys2Proof.Machine Sys2Proof.Claims Sys2Proof.Proofs.Scope Sys2Proof.Proofs.Encoding

/-! ## The completion of a pending command -/

/-- The end of a completion step is the one of the claims (R108). -/
theorem finish_eq_completed (s : State) : finish s = Completed s := rfl

/-- Where the command OP names is the pending one, the row is its completion: its effect, then the end of the step. It
complements `rowStep_of_not_awaits`. -/
theorem rowStep_of_awaits {c : Command} {n : BitVec 3} {d : Word} {s : State} (h : Awaits s c n d) :
    rowStep (opCode c) n s = Completed (commandEffect Config.cipher ⟨c, n, d⟩ s) := by
  obtain ⟨hbusy, hpend⟩ := h
  simp only [rowStep, commandOf_opCode]
  rw [commandStep_pending _ hbusy hpend, finish_eq_completed]

/-- The row of the pending command completes it, whatever its RSVD bits. -/
theorem exec_commandRow_of_awaits {c : Command} {n : BitVec 3} {d : Word} {s : State} (h : Awaits s c n d)
    (r : BitVec 25) :
    exec (commandRow c n r) s = .next (Completed (commandEffect Config.cipher ⟨c, n, d⟩ s)) := by
  rw [exec_commandRow, rowStep_of_awaits h]

/-! ## The effects, written out -/

/-- InitOp with the new STATE (R132 to R134). -/
theorem initOp_eq (mode : OpState) (s : State) :
    initOp mode s = { s with
      state := mode, chain := s.iv, buf := Vector.replicate 16 0, cnt := 0, hb := Vector.replicate 16 0,
      hbv := false, inBytes := 0, outBytes := 0, err := .none, ivw := 0 } := rfl

/-- A stream error is the one of the claims (R203). -/
theorem streamError_eq_ended (e : StreamErr) (s : State) : streamError e s = Ended s e := rfl

/-- The return to IDLE (R136). -/
theorem returnToIdle_eq (s : State) :
    returnToIdle s = { s with
      state := .idle, err := .none, buf := Vector.replicate 16 0, cnt := 0, hb := Vector.replicate 16 0,
      hbv := false } := rfl

section
variable (c : Cipher) (n : BitVec 3) (d : Word) (s : State)

theorem commandEffect_nop : commandEffect c ⟨.nop, n, d⟩ s = s := rfl

theorem commandEffect_abort : commandEffect c ⟨.abort, n, d⟩ s = Ended s .ioError :=
  streamError_eq_ended .ioError s

theorem commandEffect_clear : commandEffect c ⟨.clear, n, d⟩ s = returnToIdle s := rfl

end

/-! ## The commands -/

/-- Settles O23: the effect of NOP is none. -/
theorem nopCompletes : Obligations.NopCompletes := by
  intro n r d s hawaits
  have hrow := exec_commandRow_of_awaits hawaits r
  rwa [commandEffect_nop] at hrow

/-- Settles O24: each INIT completes by InitOp, with its own new STATE. -/
theorem initStartsAnOperation : Obligations.InitStartsAnOperation := by
  intro n r d s mode i c hrow hawaits
  rw [← initOp_eq, ← finish_eq_completed]
  simp only [List.mem_cons, Prod.mk.injEq, List.not_mem_nil, or_false] at hrow
  obtain ⟨rfl, rfl, rfl⟩ | ⟨rfl, rfl, rfl⟩ := hrow
  · exact exec_initEnc_pending hawaits r
  · exact exec_initDec_pending hawaits r

/-- Settles O31: the effect of ABORT is StreamError(IO_ERROR). -/
theorem abortEndsInError : Obligations.AbortEndsInError := by
  intro n r d s hawaits
  have hrow := exec_commandRow_of_awaits hawaits r
  rwa [commandEffect_abort] at hrow

/-- Settles O32: the effect of CLEAR is the return to IDLE. -/
theorem clearReturnsToIdle : Obligations.ClearReturnsToIdle := by
  intro n r d s hawaits
  have hrow := exec_commandRow_of_awaits hawaits r
  rwa [commandEffect_clear, returnToIdle_eq] at hrow

end Sys2Proof.Proofs.SessionCommands
end

section
/-! PROOFS. The CBC datapath (spec/42_cbc_datapath.md): what a PUSH that completes a block writes, what the padding check
accepts, and what a whole operation computes, held against the reference functions of Machine/Reference.lean. -/

namespace Sys2Proof.Proofs.CbcDatapath

open Sys2Proof Sys2Proof.Machine Sys2Proof.Claims Sys2Proof.Proofs.ArchState Sys2Proof.Proofs.Encoding
  Sys2Proof.Proofs.SessionCommands Sys2Proof.Proofs.Memory

/-! ## Padding -/

/-- The bytes of a block from byte m on are all b. -/
theorem all_drop_eq_iff (v : Block) (m : Nat) (b : Byte) :
    (v.toList.drop m).all (fun x => x == b) = true ↔ ∀ i : Fin 16, m ≤ i.val → v[i] = b := by
  simp only [List.all_eq_true, beq_iff_eq, List.mem_iff_getElem, List.getElem_drop, Vector.getElem_toList,
    List.length_drop, Vector.length_toList]
  constructor
  · intro h i hi
    exact h _ ⟨i.val - m, by omega, by simp [Nat.add_sub_cancel' hi]⟩
  · rintro h _ ⟨j, hj, rfl⟩
    exact h ⟨m + j, by omega⟩ (Nat.le_add_right m j)

/-- Settles O52: `padOk` tests the pad count's bounds, and the pad bytes one by one. -/
theorem padCheckTestsEveryByte : Obligations.PadCheckTestsEveryByte := by
  intro hb
  simp only [padOk, Bool.and_eq_true, decide_eq_true_eq, all_drop_eq_iff, and_assoc]
  rfl

/-- A padded block as bytes: those gathered, then the padding (R155). -/
theorem padBlock_toList (b : Block) (cnt : Fin 16) :
    (padBlock b cnt).toList =
      b.toList.take cnt.val ++ List.replicate (16 - cnt.val) (BitVec.ofNat 8 (16 - cnt.val)) := by
  apply List.ext_getElem
  · simp
  · intro i hi _
    simp only [Vector.length_toList] at hi
    rw [Vector.getElem_toList, padBlock_get b cnt i hi]
    by_cases hheld : i < cnt.val
    · rw [if_pos hheld, List.getElem_append_left (by simpa using hheld)]
      simp
    · rw [if_neg hheld, List.getElem_append_right (by simp; omega)]
      simp

/-- The pad count of a padded block. -/
theorem padCount_padBlock (b : Block) (cnt : Fin 16) : padCount (padBlock b cnt) = 16 - cnt.val := by
  rw [padCount, padBlock_get b cnt 15 (by omega), if_neg (by omega), BitVec.toNat_ofNat]
  omega

/-- The padding of a padded block is valid. -/
theorem padValid_padBlock (b : Block) (cnt : Fin 16) : PadValid (padBlock b cnt) := by
  have hcount : (padBlock b cnt)[15].toNat = 16 - cnt.val := padCount_padBlock b cnt
  refine ⟨by omega, by omega, fun i hi => ?_⟩
  rw [Fin.getElem_fin, padBlock_get b cnt i.val i.isLt, if_neg (by omega), padBlock_get b cnt 15 (by omega),
    if_neg (by omega)]

/-- Taking the pad count of a padded block off it leaves the bytes gathered. -/
theorem unpad_padBlock (b : Block) (cnt : Fin 16) : unpad (padBlock b cnt) (16 - cnt.val) = b.toList.take cnt.val := by
  have hkeep : 16 - (16 - cnt.val) = (b.toList.take cnt.val).length := by simp; omega
  rw [unpad, padBlock_toList, hkeep, List.take_left]

/-- Settles O53: the padding added is valid, so PadCheck accepts it (O52), and its count is the one Unpad takes off. -/
theorem unpadUndoesPad : Obligations.UnpadUndoesPad := fun b cnt =>
  ⟨(padCheckTestsEveryByte _).2 (padValid_padBlock b cnt), padCount_padBlock b cnt, by
    rw [padCount_padBlock, unpad_padBlock]⟩

/-! ## The reference functions: bytes and blocks -/

@[simp] theorem bytesOf_nil : bytesOf [] = [] := rfl

@[simp] theorem bytesOf_cons (b : Block) (bs : List Block) : bytesOf (b :: bs) = b.toList ++ bytesOf bs := rfl

@[simp] theorem bytesOf_append (xs ys : List Block) : bytesOf (xs ++ ys) = bytesOf xs ++ bytesOf ys :=
  List.flatMap_append

@[simp] theorem bytesOf_length (bs : List Block) : (bytesOf bs).length = 16 * bs.length := by
  induction bs with
  | nil => rfl
  | cons b bs ih => simp only [bytesOf_cons, List.length_append, Vector.length_toList, List.length_cons, ih]; omega

/-- The block of a string that begins with a block's bytes. -/
theorem blockOfBytes_append (b : Block) (l : List Byte) : blockOfBytes (b.toList ++ l) = b := by
  apply Vector.ext
  intro i hi
  simp only [blockOfBytes, Vector.getElem_ofFn]
  rw [List.getD_append _ _ _ _ (by simpa using hi), List.getD_eq_getElem _ _ (by simpa using hi), Vector.getElem_toList]

/-- The bytes of the block of a string of at most 16 bytes begin with the string. -/
theorem blockOfBytes_take {l : List Byte} (h : l.length ≤ 16) : (blockOfBytes l).toList.take l.length = l := by
  apply List.ext_getElem
  · simpa using h
  · intro i _ hi
    simp [blockOfBytes, hi]

theorem takeBlocks_bytesOf (bs : List Block) (l : List Byte) : takeBlocks bs.length (bytesOf bs ++ l) = bs := by
  induction bs with
  | nil => rfl
  | cons b bs ih =>
    have hdrop : (b.toList ++ (bytesOf bs ++ l)).drop 16 = bytesOf bs ++ l := List.drop_left' (by simp)
    simp only [List.length_cons, takeBlocks, bytesOf_cons, List.append_assoc, blockOfBytes_append, hdrop, ih]

/-- Bytes that make up no block do not count. -/
theorem blocksOf_bytesOf_append (bs : List Block) {l : List Byte} (h : l.length < 16) :
    blocksOf (bytesOf bs ++ l) = bs := by
  have hcount : (bytesOf bs ++ l).length / 16 = bs.length := by
    simp only [List.length_append, bytesOf_length]
    omega
  rw [blocksOf, hcount, takeBlocks_bytesOf]

theorem blocksOf_bytesOf (bs : List Block) : blocksOf (bytesOf bs) = bs := by
  simpa using blocksOf_bytesOf_append bs (l := []) (by decide)

/-- Whole blocks, and a block cut short, padded: the cut block is the one PKCS#7 fills (R155). -/
theorem padBytes_blocks (bs : List Block) (b : Block) (cnt : Fin 16) :
    padBytes (bytesOf bs ++ b.toList.take cnt.val) = bytesOf (bs ++ [padBlock b cnt]) := by
  have hcount : (bytesOf bs ++ b.toList.take cnt.val).length % 16 = cnt.val := by
    simp only [List.length_append, bytesOf_length, List.length_take, Vector.length_toList]
    omega
  simp only [padBytes, hcount, bytesOf_append, bytesOf_cons, bytesOf_nil, List.append_nil, padBlock_toList,
    List.append_assoc]

/-- Every byte string is whole blocks and a block cut short. -/
theorem exists_blocks (l : List Byte) :
    ∃ (bs : List Block) (b : Block) (cnt : Fin 16), l = bytesOf bs ++ b.toList.take cnt.val := by
  rcases Nat.lt_or_ge l.length 16 with hshort | hlong
  · exact ⟨[], blockOfBytes l, ⟨l.length, hshort⟩, (blockOfBytes_take (Nat.le_of_lt hshort)).symm⟩
  · obtain ⟨bs, b, cnt, hrest⟩ := exists_blocks (l.drop 16)
    have hlen : (l.take 16).length = 16 := by simpa using hlong
    have hfirst := blockOfBytes_take (Nat.le_of_eq hlen)
    rw [List.take_of_length_le (by simp [hlen])] at hfirst
    refine ⟨blockOfBytes (l.take 16) :: bs, b, cnt, ?_⟩
    rw [bytesOf_cons, List.append_assoc, ← hrest, hfirst, List.take_append_drop]
termination_by l.length
decreasing_by simp only [List.length_drop]; omega

/-! ## The reference functions: CBC -/

/-- The reference's XOR is the machine's XOR16 (R150). -/
theorem combine_eq_xor16 (a b : Block) : combine a b = xor16 a b := rfl

/-- The last ciphertext block chains the next one. -/
theorem cbcEncrypt_concat (c : Cipher) (prev : Block) (ps : List Block) (p : Block) :
    cbcEncrypt c prev (ps ++ [p]) =
      cbcEncrypt c prev ps ++ [c.enc (xor16 p ((cbcEncrypt c prev ps).getLastD prev))] := by
  induction ps generalizing prev with
  | nil => rfl
  | cons q ps ih => simp only [List.cons_append, cbcEncrypt, List.getLastD_cons, ih]

/-- A block is recovered from its ciphertext block and the one before. -/
theorem cbcDecrypt_concat (c : Cipher) (prev : Block) (xs : List Block) (x : Block) :
    cbcDecrypt c prev (xs ++ [x]) = cbcDecrypt c prev xs ++ [xor16 (c.dec x) (xs.getLastD prev)] := by
  induction xs generalizing prev with
  | nil => rfl
  | cons y xs ih => simp only [List.cons_append, cbcDecrypt, List.getLastD_cons, ih]

@[simp] theorem cbcEncrypt_length (c : Cipher) (prev : Block) (ps : List Block) :
    (cbcEncrypt c prev ps).length = ps.length := by
  induction ps generalizing prev with
  | nil => rfl
  | cons p ps ih => simp only [cbcEncrypt, List.length_cons, ih]

@[simp] theorem cbcDecrypt_length (c : Cipher) (prev : Block) (xs : List Block) :
    (cbcDecrypt c prev xs).length = xs.length := by
  induction xs generalizing prev with
  | nil => rfl
  | cons x xs ih => simp only [cbcDecrypt, List.length_cons, ih]

/-- R154: D(C_i) ⊕ C_(i-1) = P_i ⊕ C_(i-1) ⊕ C_(i-1) = P_i. -/
theorem cbcDecrypt_cbcEncrypt {c : Cipher} (hc : c.Inverse) (prev : Block) (ps : List Block) :
    cbcDecrypt c prev (cbcEncrypt c prev ps) = ps := by
  induction ps generalizing prev with
  | nil => rfl
  | cons p ps ih => simp only [cbcEncrypt, cbcDecrypt, combine_eq_xor16, hc (xor16 p prev), xor16_cancel, ih]

/-! ## A PUSH that completes a block -/

/-- EncBlock, written out (R151). -/
theorem encBlock_eq (c : Cipher) (p : Block) (s : State) :
    encBlock c p s =
      { s with
        chain := c.enc (xor16 p s.chain), ofifo := s.ofifo ++ (c.enc (xor16 p s.chain)).toList,
        outBytes := s.outBytes + 16 } := by
  simp only [encBlock, fifoPush, Vector.length_toList]
  rfl

/-- DecBlock, written out (R152). -/
theorem decBlock_eq (c : Cipher) (x : Block) (s : State) :
    decBlock c x s =
      { s with
        chain := x, hb := xor16 (c.dec x) s.chain, hbv := true,
        ofifo := if s.hbv then s.ofifo ++ s.hb.toList else s.ofifo,
        outBytes := if s.hbv then s.outBytes + 16 else s.outBytes } := by
  cases hv : s.hbv <;>
    simp only [decBlock, releaseHoldBack, hv, if_true, Bool.false_eq_true, if_false, fifoPush, Vector.length_toList]
  rfl

/-- A PUSH that completes the block B: B is processed, the bytes left over begin the next block, and the bytes pushed
are counted (R171, R175). -/
theorem pushOp_completes (c : Cipher) {n : BitVec 3} {d : Word} {s : State} {B : Block} (hn : n.toNat ≤ 4)
    (hfull : 16 ≤ s.cnt.val + n.toNat) (hB : Gathers s d B) :
    ∃ (buf : Block) (hlt : s.cnt.val + n.toNat - 16 < 16),
      (∀ k : Fin 16, k.val < s.cnt.val + n.toNat - 16 → buf[k] = lane d (16 - s.cnt.val + k.val)) ∧
      pushOp c n d s =
        { processBlock c B s with
          buf := buf, cnt := ⟨s.cnt.val + n.toNat - 16, hlt⟩, inBytes := s.inBytes + BitVec.ofNat 64 n.toNat } := by
  have hlen := dataBytes_length n d
  have hcnt := s.cnt.isLt
  have hbytes : ∀ (k : Nat) (hk : k < 16),
      B[k] = if k < s.cnt.val then s.buf[k] else (dataBytes n d).getD (k - s.cnt.val) 0 := fun k hk => by
    rw [dataBytes_getD n d _ (by omega)]
    exact hB ⟨k, hk⟩
  obtain ⟨buf, heq, hleft⟩ := accBytes_completes c s (dataBytes n d) B (by omega) (by omega) hbytes
  refine ⟨buf, by omega, fun k hk => ?_, ?_⟩
  · rw [Fin.getElem_fin, hleft k.val k.isLt (by omega), dataBytes_getD n d _ (by omega)]
    rfl
  · have hin : (processBlock c B s).inBytes = s.inBytes := by rw [processBlock_frame]
    simp only [pushOp, heq, hlen, hin]

/-- Settles O26: the block completed is processed by EncBlock. -/
theorem pushCompletingABlockEncrypts : Obligations.PushCompletingABlockEncrypts := by
  intro n r d s B hawaits hn hstate hfull hB
  obtain ⟨buf, hlt, hleft, heq⟩ := pushOp_completes Config.cipher hn hfull hB
  rw [processBlock, if_pos hstate, encBlock_eq] at heq
  refine ⟨_, xor16 B s.chain, fun k => xor16_get _ _ k.val k.isLt, exec_commandRow_of_awaits hawaits r, ?_⟩
  simp only [commandEffect, heq]
  exact ⟨rfl, hleft, rfl⟩

/-- Settles O27: the block completed is processed by DecBlock. -/
theorem pushCompletingABlockDecrypts : Obligations.PushCompletingABlockDecrypts := by
  intro n r d s B hawaits hn hstate hfull hB
  obtain ⟨buf, hlt, hleft, heq⟩ := pushOp_completes Config.cipher hn hfull hB
  rw [processBlock, if_neg (by simp [hstate]), decBlock_eq] at heq
  refine ⟨_, exec_commandRow_of_awaits hawaits r, ?_⟩
  simp only [commandEffect, heq]
  exact ⟨rfl, hleft, fun k => xor16_get _ _ k.val k.isLt, rfl⟩

/-! ## What an operation has computed so far -/

/-- The bytes of an incomplete block that BUF holds (R171). -/
def gatheredBytes (s : State) : List Byte := s.buf.toList.take s.cnt.val

/-- The block held back, where there is one (R152). -/
def heldBack (s : State) : List Block := if s.hbv then [s.hb] else []

/-- The blocks an operation makes of its input blocks: their CBC encryption in ENC, their CBC decryption otherwise
(R154). -/
def cbcBlocks (c : Cipher) (mode : OpState) (iv : Block) (bs : List Block) : List Block :=
  if mode = .enc then cbcEncrypt c iv bs else cbcDecrypt c iv bs

/-- The ciphertext blocks of an operation: its output in ENC, its input otherwise. -/
def cipherBlocks (c : Cipher) (mode : OpState) (iv : Block) (bs : List Block) : List Block :=
  if mode = .enc then cbcEncrypt c iv bs else bs

/-- The machine has processed the blocks bs under iv, and the host has taken the bytes `taken`: CHAIN is the last
ciphertext block, and what was taken, the FIFO and HB hold together the CBC of bs (R150 to R152). -/
structure Processed (c : Cipher) (mode : OpState) (iv : Block) (bs : List Block) (taken : List Byte) (s : State) :
    Prop where
  state : s.state = mode
  chain : s.chain = (cipherBlocks c mode iv bs).getLastD iv
  output : ∃ ps, cbcBlocks c mode iv bs = ps ++ heldBack s ∧ taken ++ s.ofifo = bytesOf ps
  holds : s.hbv = true ↔ mode ≠ .enc ∧ bs ≠ []
  outBytes : s.outBytes = BitVec.ofNat 64 (taken ++ s.ofifo).length

/-- The machine has received the bytes `input`: whole blocks, which are processed, and those BUF holds. -/
def Received (c : Cipher) (mode : OpState) (iv : Block) (input taken : List Byte) (s : State) : Prop :=
  ∃ bs, input = bytesOf bs ++ gatheredBytes s ∧ Processed c mode iv bs taken s

/-- Between two acts of the host IN_BYTES counts the bytes received as well (R170). -/
structure InOperation (c : Cipher) (mode : OpState) (iv : Block) (input taken : List Byte) (s : State) : Prop where
  received : Received c mode iv input taken s
  inBytes : s.inBytes = BitVec.ofNat 64 input.length

section
variable {c : Cipher} {mode : OpState} {iv : Block} {bs : List Block} {input taken taken' : List Byte} {s t : State}

/-- The fields that `Processed` reads, but for the FIFO. -/
def cbcStateOf (s : State) : OpState × Block × Block × Bool × Count := (s.state, s.chain, s.hb, s.hbv, s.outBytes)

/-- `Processed` does not see the other fields, nor which bytes of the output the host has taken already. -/
theorem Processed.congr (h : Processed c mode iv bs taken s) (hsame : cbcStateOf t = cbcStateOf s)
    (houtput : taken' ++ t.ofifo = taken ++ s.ofifo) : Processed c mode iv bs taken' t := by
  simp only [cbcStateOf, Prod.mk.injEq] at hsame
  obtain ⟨hstate, hchain, hhb, hhbv, hout⟩ := hsame
  have hheld : heldBack t = heldBack s := by simp only [heldBack, hhb, hhbv]
  exact ⟨hstate.trans h.state, hchain.trans h.chain, by rw [hheld, houtput]; exact h.output,
    by rw [hhbv]; exact h.holds, by rw [hout, houtput]; exact h.outBytes⟩

/-- What BUF holds is not processed yet. -/
theorem Processed.setBuf (h : Processed c mode iv bs taken s) (buf : Block) :
    Processed c mode iv bs taken { s with buf := buf } := h.congr rfl rfl

theorem Received.congr (h : Received c mode iv input taken s) (hbuf : t.buf = s.buf) (hcnt : t.cnt = s.cnt)
    (hsame : cbcStateOf t = cbcStateOf s) (houtput : taken' ++ t.ofifo = taken ++ s.ofifo) :
    Received c mode iv input taken' t := by
  obtain ⟨bs, hinput, hprocessed⟩ := h
  exact ⟨bs, by simpa only [gatheredBytes, hbuf, hcnt] using hinput, hprocessed.congr hsame houtput⟩

/-- OUT_BYTES counts a block that is output. -/
theorem outBytes_add_block {l : List Byte} {n : Count} (h : n = BitVec.ofNat 64 l.length) (b : Block) :
    n + 16 = BitVec.ofNat 64 (l ++ b.toList).length := by
  rw [List.length_append, Vector.length_toList, BitVec.ofNat_add, h]
  rfl

/-- EncBlock is one step of CBC encryption (R150, R151). -/
theorem Processed.encBlock (h : Processed c .enc iv bs taken s) (B : Block) :
    Processed c .enc iv (bs ++ [B]) taken (encBlock c B s) := by
  have hchain : s.chain = (cbcEncrypt c iv bs).getLastD iv := h.chain
  have hhbv : s.hbv = false := by simpa using h.holds
  obtain ⟨ps, hblocks, houtput⟩ := h.output
  simp only [cbcBlocks, if_true, heldBack, hhbv, Bool.false_eq_true, if_false, List.append_nil] at hblocks
  rw [encBlock_eq, hchain]
  refine ⟨h.state, ?_, ⟨ps ++ [c.enc (xor16 B ((cbcEncrypt c iv bs).getLastD iv))], ?_, ?_⟩, ?_, ?_⟩
  · simp only [cipherBlocks, if_true, cbcEncrypt_concat, List.getLastD_concat]
  · simp only [cbcBlocks, if_true, cbcEncrypt_concat, heldBack, hhbv, Bool.false_eq_true, if_false, List.append_nil,
      hblocks]
  · simp only [bytesOf_append, bytesOf_cons, bytesOf_nil, List.append_nil, ← houtput, List.append_assoc]
  · simp [hhbv]
  · rw [← List.append_assoc]
    exact outBytes_add_block h.outBytes _

/-- DecBlock is one step of CBC decryption; its output is one block behind (R150, R152). -/
theorem Processed.decBlock (h : Processed c mode iv bs taken s) (hmode : mode ≠ .enc) (B : Block) :
    Processed c mode iv (bs ++ [B]) taken (decBlock c B s) := by
  have hchain : s.chain = bs.getLastD iv := by simpa only [cipherBlocks, if_neg hmode] using h.chain
  obtain ⟨ps, hblocks, houtput⟩ := h.output
  simp only [cbcBlocks, if_neg hmode] at hblocks
  rw [decBlock_eq, hchain]
  refine ⟨h.state, ?_, ⟨ps ++ heldBack s, ?_, ?_⟩, ?_, ?_⟩
  · simp only [cipherBlocks, if_neg hmode, List.getLastD_concat]
  · simp only [cbcBlocks, if_neg hmode, cbcDecrypt_concat, hblocks, heldBack, if_true]
  · cases hv : s.hbv <;> simp [heldBack, hv, ← houtput]
  · simp [hmode]
  · cases hv : s.hbv
    · exact h.outBytes
    · simp only [if_true]
      rw [← List.append_assoc]
      exact outBytes_add_block h.outBytes _

theorem Processed.processBlock (h : Processed c mode iv bs taken s) (B : Block) :
    Processed c mode iv (bs ++ [B]) taken (processBlock c B s) := by
  simp only [Machine.processBlock, h.state]
  by_cases hmode : mode = .enc
  · subst hmode
    simpa only [if_true] using h.encBlock B
  · simpa only [if_neg hmode] using h.decBlock hmode B

/-! ## The bytes of a PUSH -/

/-- The byte accepted stands behind those gathered before. -/
theorem take_set_succ (buf : Block) (cnt : Fin 16) (b : Byte) :
    (buf.set cnt b).toList.take (cnt.val + 1) = buf.toList.take cnt.val ++ [b] := by
  rw [Vector.toList_set, List.set_eq_take_append_cons_drop, if_pos (by simp)]
  simp [List.take_append]

theorem Received.accByte (h : Received c mode iv input taken s) (b : Byte) :
    Received c mode iv (input ++ [b]) taken (accByte c s b) := by
  obtain ⟨bs, hinput, hprocessed⟩ := h
  have hset := take_set_succ s.buf s.cnt b
  rw [hinput, gatheredBytes, List.append_assoc, ← hset]
  rcases Nat.lt_or_ge (s.cnt.val + 1) 16 with hlt | hge
  · rw [accByte_gathers c s b hlt]
    exact ⟨bs, rfl, hprocessed.congr rfl rfl⟩
  · have hlast : s.cnt.val = 15 := by omega
    have hblock : (s.buf.set s.cnt b).toList.take (s.cnt.val + 1) = (s.buf.set s.cnt b).toList :=
      List.take_of_length_le (by simp [hlast])
    rw [accByte_completes c s b hlast, hblock]
    refine ⟨bs ++ [s.buf.set s.cnt b], ?_, ?_⟩
    · simp [gatheredBytes]
    · exact ((hprocessed.setBuf _).processBlock _).congr rfl rfl

theorem Received.accBytes (h : Received c mode iv input taken s) (l : List Byte) :
    Received c mode iv (input ++ l) taken (accBytes c l s) := by
  induction l generalizing input s with
  | nil => simpa using h
  | cons b l ih =>
    rw [accBytes_cons, List.append_cons]
    exact ih (h.accByte b)

/-- PUSH receives its data bytes and counts them (R170, R175). -/
theorem InOperation.pushOp (h : InOperation c mode iv input taken s) (n : BitVec 3) (d : Word) :
    InOperation c mode iv (input ++ dataBytes n d) taken (pushOp c n d s) where
  received := (h.received.accBytes (dataBytes n d)).congr rfl rfl rfl rfl
  inBytes := by
    have hin : (accBytes c (dataBytes n d) s).inBytes = s.inBytes := by rw [accBytes_frame]
    simp only [Machine.pushOp, hin, h.inBytes, List.length_append, dataBytes_length, BitVec.ofNat_add]

/-! ## The host's acts -/

/-- The host reads off DOUT the bytes POP packs into it (R85, R177). -/
theorem dataBytes_packBytes {n : BitVec 3} {l : List Byte} (hlen : l.length = n.toNat) (hn : n.toNat ≤ 4) :
    dataBytes n (packBytes l) = l := by
  obtain ⟨h0, h1, h2, h3⟩ := lane_wordOf (l.getD 0 0) (l.getD 1 0) (l.getD 2 0) (l.getD 3 0)
  apply List.ext_getElem
  · simp [dataBytes, hlen]
  · intro j _ hj
    have hlane : byteOf (packBytes l) j = l.getD j 0 := by
      obtain rfl | rfl | rfl | rfl : j = 0 ∨ j = 1 ∨ j = 2 ∨ j = 3 := by omega
      exacts [h0, h1, h2, h3]
    simp [dataBytes, hlane, hj]

/-- A PUSH that is not refused. -/
theorem runAct_push {n : BitVec 3} {d : Word} (h : runAct c (.push n d) s = some t) :
    t = finish (pushOp c n d (accept .push n (writeDin d s))) := by
  simp only [runAct] at h
  split_ifs at h with haccepts
  rw [commandWait_accepted haccepts] at h
  exact (Option.some.inj h).symm

/-- A POP that is not refused finds its bytes in the FIFO. -/
theorem runAct_pop {n : BitVec 3} (h : runAct c (.pop n) s = some t) :
    t = finish (fifoPop n.toNat (accept .pop n s)) ∧ takenFrom (.pop n) t ++ t.ofifo = s.ofifo := by
  simp only [runAct] at h
  split_ifs at h with haccepts
  rw [commandWait_accepted haccepts] at h
  obtain rfl := Option.some.inj h
  obtain ⟨-, hn, hheld⟩ := accepted_pop (accepts_iff.1 haccepts).2
  refine ⟨rfl, ?_⟩
  have htaken : dataBytes n (packBytes (s.ofifo.take n.toNat)) = s.ofifo.take n.toNat :=
    dataBytes_packBytes (by simpa using hheld) hn
  change dataBytes n (packBytes (s.ofifo.take n.toNat)) ++ s.ofifo.drop n.toNat = s.ofifo
  rw [htaken, List.take_append_drop]

theorem InOperation.runAct (h : InOperation c mode iv input taken s) {a : Act} (hrun : runAct c a s = some t) :
    InOperation c mode iv (input ++ handedOver a) (taken ++ takenFrom a t) t := by
  cases a with
  | push n d =>
    obtain rfl := runAct_push hrun
    have haccepted : InOperation c mode iv input taken (accept .push n (writeDin d s)) :=
      ⟨h.received.congr rfl rfl rfl rfl, h.inBytes⟩
    have hpushed := haccepted.pushOp n d
    simp only [takenFrom, List.append_nil]
    exact ⟨hpushed.received.congr rfl rfl rfl rfl, hpushed.inBytes⟩
  | pop n =>
    obtain ⟨rfl, hfifo⟩ := runAct_pop hrun
    simp only [handedOver, List.append_nil]
    exact ⟨h.received.congr rfl rfl rfl (by rw [List.append_assoc, hfifo]), h.inBytes⟩

/-- The first of several acts, and the others. -/
theorem runActs_cons {a : Act} {rest : List Act} {u : State} {out : List Byte}
    (h : runActs c (a :: rest) s = some (u, out)) :
    ∃ t out', runAct c a s = some t ∧ runActs c rest t = some (u, out') ∧ out = takenFrom a t ++ out' := by
  simp only [runActs] at h
  split at h
  · cases h
  · next t ht =>
    split at h
    · cases h
    · next v out' hrest =>
      cases h
      exact ⟨t, out', ht, hrest, rfl⟩

theorem InOperation.runActs (h : InOperation c mode iv input taken s) {acts : List Act} {out : List Byte}
    (hrun : runActs c acts s = some (t, out)) :
    InOperation c mode iv (input ++ inputOf acts) (taken ++ out) t := by
  induction acts generalizing input taken out s with
  | nil =>
    cases hrun
    simpa [inputOf] using h
  | cons a rest ih =>
    obtain ⟨u, out', hact, hrest, rfl⟩ := runActs_cons hrun
    simpa [inputOf] using ih (h.runAct hact) hrest

/-- The result of an operation, but for its output: STATE, ERR and the counters. -/
def resultOf (s : State) : OpState × StreamErr × Count × Count := (s.state, s.err, s.inBytes, s.outBytes)

/-- Pops move the FIFO's bytes to the host and leave the result as it is. -/
theorem runActs_pops {pops : List (BitVec 3)} {out : List Byte}
    (hrun : runActs c (pops.map .pop) s = some (t, out)) : out ++ t.ofifo = s.ofifo ∧ resultOf t = resultOf s := by
  induction pops generalizing s out with
  | nil =>
    cases hrun
    exact ⟨rfl, rfl⟩
  | cons n pops ih =>
    obtain ⟨u, out', hact, hrest, rfl⟩ := runActs_cons hrun
    obtain ⟨hu, hfifo⟩ := runAct_pop hact
    obtain ⟨hdrained, hresult⟩ := ih hrest
    refine ⟨by rw [List.append_assoc, hdrained, hfifo], hresult.trans ?_⟩
    rw [hu]
    rfl

end

/-! ## A whole operation -/

/-- InitOp with an empty FIFO: nothing is received, and CHAIN is IV (R134). -/
theorem inOperation_initOp (c : Cipher) (mode : OpState) {s : State} (hempty : s.ofifo = []) :
    InOperation c mode s.iv [] [] (initOp mode s) where
  received := by
    refine ⟨[], rfl, rfl, ?_, ⟨[], ?_, by simp [hempty]⟩, by simp, by simp [hempty]⟩
    · cases mode <;> rfl
    · cases mode <;> rfl
  inBytes := rfl

/-- A whole operation: its commands are accepted one after the other. -/
theorem runOperation_eq_some {c : Cipher} {init : Command} {acts : List Act} {pops : List (BitVec 3)} {s t : State}
    {out : List Byte} (h : runOperation c init acts pops s = some (t, out)) :
    ∃ u taken drained, accepts init 0 s = true ∧ runActs c acts (commandWait c init 0 s) = some (u, taken) ∧
      accepts .final 0 u = true ∧ runActs c (pops.map .pop) (commandWait c .final 0 u) = some (t, drained) ∧
      out = taken ++ drained := by
  simp only [runOperation] at h
  split_ifs at h with hinit
  split at h
  · cases h
  · next u taken hacts =>
    split_ifs at h with hfinal
    split at h
    · cases h
    · next v drained hpops =>
      cases h
      exact ⟨u, taken, drained, hinit, hacts, hfinal, hpops, rfl⟩

/-- A whole operation is its input received, then FINAL, whose output the host may take. -/
theorem runOperation_final {c : Cipher} {init : Command} {mode : OpState} {acts : List Act} {pops : List (BitVec 3)}
    {s t : State} {out : List Byte} (hmode : ∀ d u, commandEffect c ⟨init, 0, d⟩ u = initOp mode u)
    (hinv : StepInv s) (hready : ReadyForInit s) (hrun : runOperation c init acts pops s = some (t, out)) :
    ∃ u taken, InOperation c mode s.iv (inputOf acts) taken u ∧ out ++ t.ofifo = taken ++ (finalOp c u).ofifo ∧
      resultOf t = resultOf (finalOp c u) := by
  obtain ⟨hidle, -⟩ := hready
  obtain ⟨hempty, -⟩ := hinv.idle hidle
  obtain ⟨u, taken, drained, hinit, hacts, hfinal, hpops, rfl⟩ := runOperation_eq_some hrun
  rw [commandWait_accepted hinit, complete, hmode] at hacts
  rw [commandWait_accepted hfinal, complete] at hpops
  simp only [commandEffect, finalOp_accept] at hpops
  have hstart := inOperation_initOp c mode (s := accept init 0 s) hempty
  have hstarted : InOperation c mode s.iv [] [] (finish (initOp mode (accept init 0 s))) :=
    ⟨hstart.received.congr rfl rfl rfl rfl, hstart.inBytes⟩
  obtain ⟨hdrained, hresult⟩ := runActs_pops hpops
  refine ⟨u, taken, by simpa using hstarted.runActs hacts, ?_, hresult⟩
  rw [List.append_assoc, hdrained]
  rfl

/-! ## Encryption -/

/-- FINAL in ENC: the padded last block is encrypted (R155, R179). -/
theorem InOperation.finalEnc {c : Cipher} {iv : Block} {input taken : List Byte} {s : State}
    (h : InOperation c .enc iv input taken s) :
    taken ++ (finalEnc c s).ofifo = bytesOf (cbcEncrypt c iv (blocksOf (padBytes input))) ∧
      resultOf (finalEnc c s) =
        (.done, s.err, BitVec.ofNat 64 input.length, BitVec.ofNat 64 (taken ++ (finalEnc c s).ofifo).length) := by
  obtain ⟨⟨bs, hinput, hprocessed⟩, hin⟩ := h
  set t := encBlock c (padBlock s.buf s.cnt) { s with buf := padBlock s.buf s.cnt } with ht
  have hlast : Processed c .enc iv (bs ++ [padBlock s.buf s.cnt]) taken t := (hprocessed.setBuf _).encBlock _
  have hhbv : heldBack t = [] := if_neg fun hv => (hlast.holds.1 hv).1 rfl
  obtain ⟨ps, hblocks, houtput⟩ := hlast.output
  rw [hhbv, List.append_nil] at hblocks
  have hfifo : (Machine.finalEnc c s).ofifo = t.ofifo := rfl
  have hresult : resultOf (Machine.finalEnc c s) = (.done, s.err, s.inBytes, t.outBytes) := by
    simp only [resultOf, Machine.finalEnc, ht, encBlock_eq]
  rw [hfifo, hresult, hin, hlast.outBytes, houtput, ← hblocks, hinput, gatheredBytes, padBytes_blocks,
    blocksOf_bytesOf]
  exact ⟨rfl, rfl⟩

/-- A whole encrypt operation (R154, R179): the host has, or may still take, the CBC encryption of the padded input. -/
theorem encryptOperation_result {c : Cipher} {acts : List Act} {pops : List (BitVec 3)} {s t : State}
    {out : List Byte} (hinv : StepInv s) (hready : ReadyForInit s)
    (hrun : runOperation c .initEnc acts pops s = some (t, out)) :
    t.state = .done ∧ out ++ t.ofifo = bytesOf (cbcEncrypt c s.iv (blocksOf (padBytes (inputOf acts)))) ∧
      t.inBytes = BitVec.ofNat 64 (inputOf acts).length ∧ t.outBytes = BitVec.ofNat 64 (out ++ t.ofifo).length := by
  obtain ⟨u, taken, hop, hfifo, hresult⟩ := runOperation_final (fun _ _ => rfl) hinv hready hrun
  have hfinal : finalOp c u = finalEnc c u := by
    obtain ⟨⟨bs, -, hprocessed⟩, -⟩ := hop
    simp only [finalOp, hprocessed.state, if_true]
  obtain ⟨houtput, hend⟩ := hop.finalEnc
  rw [hfinal] at hfifo hresult
  rw [hend, ← hfifo] at hresult
  simp only [resultOf, Prod.mk.injEq] at hresult
  obtain ⟨hstate, -, hin, hout⟩ := hresult
  exact ⟨hstate, hfifo.trans houtput, hin, hout⟩

/-- Settles O56: nothing is left in the FIFO. -/
theorem encryptOperationComputesCbc : Obligations.EncryptOperationComputesCbc := by
  intro c s t acts pops out hinv hready hrun hdrained
  obtain ⟨hstate, houtput, -, -⟩ := encryptOperation_result hinv hready hrun
  rw [hdrained, List.append_nil] at houtput
  exact ⟨hstate, houtput⟩

/-! ## Decryption -/

/-- How a decrypt operation ends that has recovered the blocks ds from len bytes of input, in the state s, with `output`
taken by the host or left in the FIFO (R180 to R184). -/
inductive DecryptEnd (ds : List Block) (len : Nat) (output : List Byte) (s : State) : Prop
  | truncated (hlen : len % 16 ≠ 0) (hstate : s.state = .error) (herr : s.err = .truncatedCiphertext)
  | badPadding (hlen : len % 16 = 0) (hbad : ¬∃ ps last, ds = ps ++ [last] ∧ PadValid last)
      (hstate : s.state = .error) (herr : s.err = .badPadding)
  | stripped (ps : List Block) (last : Block) (hlen : len = 16 * (ps.length + 1)) (hds : ds = ps ++ [last])
      (hvalid : PadValid last) (hstate : s.state = .done)
      (houtput : output = bytesOf ps ++ last.toList.take (16 - last[15].toNat))
      (hin : s.inBytes = BitVec.ofNat 64 len) (hout : s.outBytes = BitVec.ofNat 64 output.length)

/-- An end is told by the result. -/
theorem DecryptEnd.congr {ds : List Block} {len : Nat} {output : List Byte} {s t : State}
    (h : DecryptEnd ds len output s) (hsame : resultOf t = resultOf s) : DecryptEnd ds len output t := by
  simp only [resultOf, Prod.mk.injEq] at hsame
  obtain ⟨hstate', herr', hin', hout'⟩ := hsame
  cases h with
  | truncated hlen hstate herr => exact .truncated hlen (hstate'.trans hstate) (herr'.trans herr)
  | badPadding hlen hbad hstate herr => exact .badPadding hlen hbad (hstate'.trans hstate) (herr'.trans herr)
  | stripped ps last hlen hds hvalid hstate houtput hin hout =>
    exact .stripped ps last hlen hds hvalid (hstate'.trans hstate) houtput (hin'.trans hin) (hout'.trans hout)

/-- FINAL in DEC: the block held back is the last one recovered, and its padding decides (R180 to R184). -/
theorem InOperation.finalDec {c : Cipher} {iv : Block} {input taken : List Byte} {s : State}
    (h : InOperation c .dec iv input taken s) :
    DecryptEnd (cbcDecrypt c iv (blocksOf input)) input.length (taken ++ (finalDec s).ofifo) (finalDec s) := by
  obtain ⟨⟨bs, hinput, hprocessed⟩, hin⟩ := h
  have hshort : (gatheredBytes s).length = s.cnt.val := by simp [gatheredBytes]
  have hlen : input.length = 16 * bs.length + s.cnt.val := by
    rw [hinput, List.length_append, bytesOf_length, hshort]
  have hbs : blocksOf input = bs := by rw [hinput, blocksOf_bytesOf_append bs (by omega)]
  obtain ⟨ps, hblocks, houtput⟩ := hprocessed.output
  replace hblocks : cbcDecrypt c iv bs = ps ++ heldBack s := hblocks
  rw [hbs]
  obtain ⟨hcnt, heq⟩ | ⟨hcnt, hhbv, heq⟩ | ⟨hcnt, hhbv, hpad, heq⟩ | ⟨hcnt, hhbv, hpad, heq⟩ := finalDec_cases s <;>
    rw [heq]
  · have hpartial : s.cnt.val ≠ 0 := fun hzero => hcnt (Fin.ext hzero)
    exact .truncated (by omega) rfl rfl
  · refine .badPadding (by simp [hlen, hcnt]) ?_ rfl rfl
    have hnone : bs = [] := by simpa [hhbv] using hprocessed.holds
    simp [hnone, cbcDecrypt]
  · refine .badPadding (by simp [hlen, hcnt]) ?_ rfl rfl
    rintro ⟨ps', last, hds, hvalid⟩
    rw [hblocks, heldBack, if_pos hhbv] at hds
    obtain ⟨-, rfl⟩ := List.append_inj' hds rfl |>.imp_right List.singleton_inj.1
    simp [(padCheckTestsEveryByte s.hb).2 hvalid] at hpad
  · rw [heldBack, if_pos hhbv] at hblocks
    have hcount : bs.length = ps.length + 1 := by simpa using congrArg List.length hblocks
    refine .stripped ps s.hb (by simp [hlen, hcnt, hcount]) hblocks ((padCheckTestsEveryByte s.hb).1 hpad) rfl ?_ hin ?_
    · simp only [unstrip, fifoPush, ← List.append_assoc, houtput]
      rfl
    · simp only [unstrip, fifoPush, ← List.append_assoc]
      rw [List.length_append, BitVec.ofNat_add, hprocessed.outBytes]

/-- A whole decrypt operation ends in one of the three ways. -/
theorem decryptOperation_end {c : Cipher} {acts : List Act} {pops : List (BitVec 3)} {s t : State} {out : List Byte}
    (hinv : StepInv s) (hready : ReadyForInit s) (hrun : runOperation c .initDec acts pops s = some (t, out)) :
    DecryptEnd (cbcDecrypt c s.iv (blocksOf (inputOf acts))) (inputOf acts).length (out ++ t.ofifo) t := by
  obtain ⟨u, taken, hop, hfifo, hresult⟩ := runOperation_final (fun _ _ => rfl) hinv hready hrun
  have hfinal : finalOp c u = finalDec u := by
    obtain ⟨⟨bs, -, hprocessed⟩, -⟩ := hop
    simp only [finalOp, hprocessed.state, reduceCtorEq, if_false]
  rw [hfinal] at hfifo hresult
  rw [hfifo]
  exact hop.finalDec.congr hresult

/-- Settles O60, along the three ends of a decrypt operation. -/
theorem decryptOperationComputesCbc : Obligations.DecryptOperationComputesCbc := by
  intro c s t acts pops out hinv hready hrun
  cases decryptOperation_end hinv hready hrun with
  | truncated hlen hstate herr => exact ⟨fun hdone => by simp [hstate] at hdone, fun hwhole => absurd hwhole hlen⟩
  | badPadding hlen hbad hstate herr =>
    exact ⟨fun hdone => by simp [hstate] at hdone,
      fun _ => ⟨by simp only [hstate, reduceCtorEq, hbad], fun _ => ⟨hstate, herr⟩⟩⟩
  | stripped ps last hlen hds hvalid hstate houtput hin hout =>
    refine ⟨fun _ hdrained => ⟨ps, last, hds, hvalid, by simpa [hdrained] using houtput⟩, fun _ => ⟨?_, ?_⟩⟩
    · exact ⟨fun _ => ⟨ps, last, hds, hvalid⟩, fun _ => hstate⟩
    · exact fun hnot => absurd hstate hnot

/-- Settles O57: the lengths of the outputs, below the wrap. -/
theorem lengthsAtDone : Obligations.LengthsAtDone := by
  intro c s t acts pops out hinv hready hwrap
  refine ⟨fun hrun => ?_, fun hrun hdone => ?_⟩
  · obtain ⟨-, houtput, hin, hout⟩ := encryptOperation_result hinv hready hrun
    obtain ⟨bs, b, cnt, hinput⟩ := exists_blocks (inputOf acts)
    have hlen : (inputOf acts).length = 16 * bs.length + cnt.val := by
      simp [hinput]
    have hblocks : blocksOf (padBytes (inputOf acts)) = bs ++ [padBlock b cnt] := by
      rw [hinput, padBytes_blocks, blocksOf_bytesOf]
    have htotal : (out ++ t.ofifo).length = 16 * (bs.length + 1) := by simp [houtput, hblocks]
    rw [hin, hout, htotal, BitVec.toNat_ofNat, BitVec.toNat_ofNat]
    omega
  · cases decryptOperation_end hinv hready hrun with
    | truncated hlen hstate herr => simp [hstate] at hdone
    | badPadding hlen hbad hstate herr => simp [hstate] at hdone
    | stripped ps last hlen hds hvalid hstate houtput hin hout =>
      obtain ⟨hlow, hhigh, -⟩ := hvalid
      have htotal : (out ++ t.ofifo).length = 16 * ps.length + (16 - last[15].toNat) := by simp [houtput]
      refine ⟨?_, ⟨ps.length + 1, by omega, hlen⟩, ps, last, hds, hlow, hhigh, ?_⟩
      · rw [hin, BitVec.toNat_ofNat]
        omega
      · rw [hout, htotal, BitVec.toNat_ofNat]
        omega

/-- Settles O54: what is decrypted are the blocks themselves, of which the last one has a valid padding (O60). -/
theorem cbcDecryptionInvertsEncryption : Obligations.CbcDecryptionInvertsEncryption := by
  intro c s t acts pops out ps last hc hinv hready hvalid hinput hrun hdrained
  have hds : cbcDecrypt c s.iv (blocksOf (inputOf acts)) = ps ++ [last] := by
    rw [hinput, blocksOf_bytesOf, cbcDecrypt_cbcEncrypt hc]
  have hwhole : (inputOf acts).length % 16 = 0 := by simp [hinput]
  obtain ⟨houtput, hends⟩ := decryptOperationComputesCbc c s t acts pops out hinv hready hrun
  have hdone : t.state = .done := (hends hwhole).1.2 ⟨ps, last, hds, hvalid⟩
  obtain ⟨ps', last', hds', -, hout⟩ := houtput hdone hdrained
  obtain ⟨rfl, rfl⟩ := (List.append_inj' (hds.symm.trans hds') rfl).imp_right List.singleton_inj.1
  exact ⟨hdone, hout⟩

/-- Settles O59: the ciphertext is that of the padded plaintext (O56), decryption gives its blocks back (O54), and the
padding taken off is the padding added (O53). -/
theorem roundTripRestoresThePlaintext : Obligations.RoundTripRestoresThePlaintext := by
  intro c s s' t t' acts acts' pops pops' q out hc hinv hinv' hready hready' hiv henc hdrained hq hdec hdrained'
  obtain ⟨bs, b, cnt, hinput⟩ := exists_blocks (inputOf acts)
  obtain ⟨-, hcipher⟩ := encryptOperationComputesCbc c s t acts pops q hinv hready henc hdrained
  rw [hinput, padBytes_blocks, blocksOf_bytesOf, ← hq, ← hiv] at hcipher
  obtain ⟨hdone, hout⟩ := cbcDecryptionInvertsEncryption c s' t' acts' pops' out bs (padBlock b cnt) hc hinv' hready'
    (padValid_padBlock b cnt) hcipher hdec hdrained'
  obtain ⟨-, -, hunpad⟩ := unpadUndoesPad b cnt
  refine ⟨hdone, ?_⟩
  rw [hout, hinput, ← hunpad]
  rfl

end Sys2Proof.Proofs.CbcDatapath
end

section
/-! PROOFS. The stream commands (spec/43_stream_commands.md): what a PUSH within a block, FINAL and POP write, that
the grouping of the input into PUSHes leaves no trace, and how a truncated ciphertext ends. -/

namespace Sys2Proof.Proofs.StreamCommands

open Sys2Proof Sys2Proof.Machine Sys2Proof.Claims Sys2Proof.Proofs.ArchState Sys2Proof.Proofs.Memory
  Sys2Proof.Proofs.Encoding Sys2Proof.Proofs.CommandIssue Sys2Proof.Proofs.SessionCommands
  Sys2Proof.Proofs.CbcDatapath

/-! ## PUSH within a block -/

/-- A PUSH that completes no block: its bytes stand in BUF behind those gathered before, and are counted (R170, R171).
It complements `pushOp_completes`. -/
theorem pushOp_gathers (c : Cipher) {n : BitVec 3} (d : Word) {s : State} (hlt : s.cnt.val + n.toNat < 16) :
    ∃ buf : Block,
      (∀ k : Fin 16, buf[k] =
        if s.cnt.val ≤ k.val ∧ k.val < s.cnt.val + n.toNat then lane d (k.val - s.cnt.val) else s.buf[k]) ∧
      pushOp c n d s =
        { s with buf := buf, cnt := ⟨s.cnt.val + n.toNat, hlt⟩, inBytes := s.inBytes + BitVec.ofNat 64 n.toNat } := by
  have hlen := dataBytes_length n d
  obtain ⟨buf, heq, hbuf⟩ := accBytes_gathers c (dataBytes n d) s (by omega)
  simp only [hlen] at heq hbuf
  refine ⟨buf, fun k => ?_, by simp only [pushOp, heq]⟩
  rw [Fin.getElem_fin, hbuf k.val k.isLt]
  by_cases hnew : s.cnt.val ≤ k.val ∧ k.val < s.cnt.val + n.toNat
  · rw [if_pos hnew, if_pos hnew, dataBytes_getD n d _ (by omega)]
    rfl
  · rw [if_neg hnew, if_neg hnew]
    rfl

/-- Settles O25: the effect of a PUSH that completes no block. -/
theorem pushWithinABlockGathers : Obligations.PushWithinABlockGathers := by
  intro n r d s hawaits hlt
  obtain ⟨buf, hbuf, heq⟩ := pushOp_gathers Config.cipher d hlt
  refine ⟨_, exec_commandRow_of_awaits hawaits r, ?_⟩
  simp only [commandEffect, heq]
  exact ⟨rfl, hbuf, rfl⟩

/-! ## FINAL -/

section
variable {n : BitVec 3} {d : Word} {s : State}

/-- The effect of FINAL in ENC: the block BUF pads out to is encrypted, and the operation is DONE (R155, R179). -/
theorem commandEffect_final_enc (c : Cipher) (hstate : s.state = .enc) :
    commandEffect c ⟨.final, n, d⟩ s =
      { encBlock c (padBlock s.buf s.cnt) s with
        buf := padBlock s.buf s.cnt, cnt := 0, state := .done, doneP := true } := by
  simp only [commandEffect, finalOp, hstate, if_true, finalEnc, encBlock_eq]

/-- The effect of FINAL in DEC. -/
theorem commandEffect_final_dec (c : Cipher) (hstate : s.state = .dec) :
    commandEffect c ⟨.final, n, d⟩ s = finalDec s := by
  simp only [commandEffect, finalOp, hstate, reduceCtorEq, if_false]

/-- The first check of FINAL in DEC: bytes of an incomplete block are left (R181). -/
theorem finalDec_truncated (hcnt : s.cnt ≠ 0) : finalDec s = Ended s .truncatedCiphertext := by
  rw [finalDec, if_pos hcnt, streamError_eq_ended]

/-- The second check of FINAL in DEC: no block was received (R182). -/
theorem finalDec_noBlock (hcnt : s.cnt = 0) (hhbv : s.hbv = false) : finalDec s = Ended s .badPadding := by
  rw [finalDec, if_neg (by simp [hcnt]), if_pos (by simp [hhbv]), streamError_eq_ended]

/-- The third check of FINAL in DEC: the padding of the block held back (R183). -/
theorem finalDec_badPadding (hcnt : s.cnt = 0) (hhbv : s.hbv = true) (hpad : ¬PadValid s.hb) :
    finalDec s = Ended s .badPadding := by
  have hfails : ¬padOk s.hb = true := fun hok => hpad ((padCheckTestsEveryByte s.hb).1 hok)
  rw [finalDec, if_neg (by simp [hcnt]), if_neg (by simp [hhbv]), if_neg hfails, streamError_eq_ended]

/-- FINAL in DEC with its checks passed: the block held back is output without its padding (R184). -/
theorem finalDec_strips (hcnt : s.cnt = 0) (hhbv : s.hbv = true) (hpad : PadValid s.hb) :
    finalDec s = { s with
      ofifo := s.ofifo ++ s.hb.toList.take (16 - s.hb[15].toNat),
      outBytes := s.outBytes + BitVec.ofNat 64 (16 - s.hb[15].toNat),
      hb := Vector.replicate 16 0, hbv := false, state := .done, doneP := true } := by
  rw [finalDec, if_neg (by simp [hcnt]), if_neg (by simp [hhbv]), if_pos ((padCheckTestsEveryByte s.hb).2 hpad)]
  simp only [unstrip, fifoPush, unpad_length]
  rfl

end

/-- Settles O28: the block B is the padded one, and EncBlock processes it. -/
theorem finalInEncPadsAndEncrypts : Obligations.FinalInEncPadsAndEncrypts := by
  intro n r d s B hawaits hstate hB
  have hpadded : padBlock s.buf s.cnt = B := by
    apply Vector.ext
    intro k hk
    rw [padBlock_get s.buf s.cnt k hk]
    exact (hB ⟨k, hk⟩).symm
  have heffect := commandEffect_final_enc (n := n) (d := d) Config.cipher hstate
  rw [hpadded, encBlock_eq] at heffect
  refine ⟨_, xor16 B s.chain, fun k => xor16_get _ _ k.val k.isLt, exec_commandRow_of_awaits hawaits r, ?_⟩
  rw [heffect]
  rfl

/-- Settles O29, check by check. -/
theorem finalInDecChecksAndStrips : Obligations.FinalInDecChecksAndStrips := by
  intro n r d s hawaits hstate
  have hrow : exec (.final n r) s = .next (Completed (finalDec s)) := by
    rw [← commandEffect_final_dec Config.cipher hstate]
    exact exec_commandRow_of_awaits hawaits r
  rw [hrow]
  refine ⟨fun hcnt => ?_, fun ⟨hcnt, hhbv⟩ => ?_, fun ⟨hcnt, hhbv, hpad⟩ => ?_, fun ⟨hcnt, hhbv, hpad⟩ => ?_⟩
  · rw [finalDec_truncated hcnt]
  · rw [finalDec_noBlock hcnt hhbv]
  · rw [finalDec_badPadding hcnt hhbv hpad]
  · rw [finalDec_strips hcnt hhbv hpad]

/-! ## POP -/

/-- The lanes of DOUT show the bytes popped, and 0 where there is none (R85). -/
theorem lane_packBytes (l : List Byte) (j : Fin 4) : lane (packBytes l) j.val = l.getD j.val 0 := by
  obtain ⟨h0, h1, h2, h3⟩ := lane_wordOf (l.getD 0 0) (l.getD 1 0) (l.getD 2 0) (l.getD 3 0)
  match j with
  | 0 => exact h0
  | 1 => exact h1
  | 2 => exact h2
  | 3 => exact h3

/-- Settles O30: POP takes the first N bytes off the FIFO and packs them into DOUT. -/
theorem popShowsTheOldestBytes : Obligations.PopShowsTheOldestBytes := by
  intro n r d s hawaits _ hn hheld
  have htaken : (s.ofifo.take n.toNat).length = n.toNat := List.length_take_of_le hheld
  refine ⟨_, exec_commandRow_of_awaits hawaits r, ?_, fun j hj => ?_, rfl⟩
  · change s.ofifo = dataBytes n (packBytes (s.ofifo.take n.toNat)) ++ s.ofifo.drop n.toNat
    rw [dataBytes_packBytes htaken hn, List.take_append_drop]
  · exact (lane_packBytes _ j).trans (List.getD_eq_default _ _ (htaken.trans_le hj))

/-! ## The grouping of the input into PUSHes -/

/-- s, with the fields that the host's side of a PUSH writes taken from u: BUSY, PEND, CMPL_P, DIN and IN_BYTES. -/
def withPushFieldsOf (u s : State) : State :=
  { s with busy := u.busy, pend := u.pend, cmplP := u.cmplP, din := u.din, inBytes := u.inBytes }

theorem processBlock_withPushFieldsOf (c : Cipher) (B : Block) (u s : State) :
    processBlock c B (withPushFieldsOf u s) = withPushFieldsOf u (processBlock c B s) := by
  by_cases hstate : s.state = .enc
  · simp only [processBlock, withPushFieldsOf, hstate, if_true, encBlock_eq]
  · simp only [processBlock, withPushFieldsOf, hstate, if_false, decBlock_eq]

theorem accByte_withPushFieldsOf (c : Cipher) (u s : State) (b : Byte) :
    accByte c (withPushFieldsOf u s) b = withPushFieldsOf u (accByte c s b) := by
  rcases Nat.lt_or_ge (s.cnt.val + 1) 16 with hlt | hge
  · rw [accByte_gathers c s b hlt, accByte_gathers c (withPushFieldsOf u s) b hlt]
    rfl
  · have hlast : s.cnt.val = 15 := by omega
    have hblock := processBlock_withPushFieldsOf c (s.buf.set s.cnt b) u { s with buf := s.buf.set s.cnt b }
    rw [accByte_completes c s b hlast, accByte_completes c (withPushFieldsOf u s) b hlast]
    exact congrArg (fun t => { t with cnt := 0 }) hblock

/-- The bytes of a PUSH are gathered and processed without regard to the fields that its host side writes. -/
theorem accBytes_withPushFieldsOf (c : Cipher) (l : List Byte) (u s : State) :
    accBytes c l (withPushFieldsOf u s) = withPushFieldsOf u (accBytes c l s) := by
  induction l generalizing s with
  | nil => rfl
  | cons b l ih => rw [accBytes_cons, accBytes_cons, accByte_withPushFieldsOf, ih]

/-- s after the bytes l have been pushed, the last of them through the word d of DIN. -/
def pushed (c : Cipher) (l : List Byte) (d : Word) (s : State) : State :=
  finish (writeDin d { accBytes c l s with inBytes := s.inBytes + BitVec.ofNat 64 l.length })

/-- Bytes pushed in turn are pushed as one string. -/
theorem pushed_append (c : Cipher) (xs ys : List Byte) (d d' : Word) (s : State) :
    pushed c ys d' (pushed c xs d s) = pushed c (xs ++ ys) d' s := by
  have hbytes : accBytes c ys (pushed c xs d s) = withPushFieldsOf (pushed c xs d s) (accBytes c (xs ++ ys) s) := by
    rw [accBytes_append, ← accBytes_withPushFieldsOf]
    rfl
  have hcount : (pushed c xs d s).inBytes + BitVec.ofNat 64 ys.length =
      s.inBytes + BitVec.ofNat 64 (xs ++ ys).length := by
    rw [List.length_append, BitVec.ofNat_add, ← BitVec.add_assoc]
    rfl
  rw [pushed, hbytes, hcount]
  rfl

/-- A PUSH that is not refused has pushed its data bytes (R91, R170, R175). -/
theorem runAct_push_eq_pushed {c : Cipher} {n : BitVec 3} {d : Word} {s t : State}
    (h : runAct c (.push n d) s = some t) : t = pushed c (dataBytes n d) d s := by
  have hbytes : accBytes c (dataBytes n d) (accept .push n (writeDin d s)) =
      withPushFieldsOf (accept .push n (writeDin d s)) (accBytes c (dataBytes n d) s) :=
    accBytes_withPushFieldsOf c (dataBytes n d) (accept .push n (writeDin d s)) s
  rw [runAct_push h, pushOp, hbytes, pushed, dataBytes_length]
  rfl

/-- A PUSH that is not refused hands over a byte at least (R83). -/
theorem dataBytes_ne_nil_of_runAct_push {c : Cipher} {n : BitVec 3} {d : Word} {s t : State}
    (h : runAct c (.push n d) s = some t) : dataBytes n d ≠ [] := by
  simp only [runAct] at h
  split_ifs at h with haccepts
  obtain ⟨hcount, -⟩ := accepted_push (accepts_iff.1 haccepts).2
  refine List.ne_nil_of_length_pos ?_
  rw [dataBytes_length]
  omega

/-- The acts of a host that pushes n bytes of the word d for each pair (n, d). -/
def pushActs (g : List (BitVec 3 × Word)) : List Act := g.map fun x => .push x.1 x.2

/-- PUSHes that are not refused have pushed their input as one string, which shows no trace of the grouping but in DIN;
without an input there was no PUSH. -/
theorem runActs_pushActs {c : Cipher} {g : List (BitVec 3 × Word)} {s t : State} {out : List Byte}
    (hrun : runActs c (pushActs g) s = some (t, out)) :
    (inputOf (pushActs g) = [] ∧ t = s) ∨
    (inputOf (pushActs g) ≠ [] ∧ ∃ d, t = pushed c (inputOf (pushActs g)) d s) := by
  induction g generalizing s out with
  | nil =>
    cases hrun
    exact .inl ⟨rfl, rfl⟩
  | cons x g ih =>
    obtain ⟨v, out', hact, hrest, -⟩ := runActs_cons hrun
    have hinput : inputOf (pushActs (x :: g)) = dataBytes x.1 x.2 ++ inputOf (pushActs g) := rfl
    have hsome : inputOf (pushActs (x :: g)) ≠ [] :=
      hinput ▸ List.append_ne_nil_of_left_ne_nil (dataBytes_ne_nil_of_runAct_push hact) _
    obtain rfl := runAct_push_eq_pushed hact
    refine .inr ⟨hsome, ?_⟩
    obtain ⟨hnone, rfl⟩ | ⟨-, d, rfl⟩ := ih hrest
    · exact ⟨x.2, by rw [hinput, hnone, List.append_nil]⟩
    · exact ⟨d, by rw [hinput, pushed_append]⟩

/-- Settles O55: either way the input is pushed as one string, and DIN is the word that the last PUSH took. -/
theorem groupingOfPushesIsImmaterial : Obligations.GroupingOfPushesIsImmaterial := by
  intro c s t u g h hsame hg hh
  change inputOf (pushActs g) = inputOf (pushActs h) at hsame
  have hgroupG := runActs_pushActs hg
  have hgroupH := runActs_pushActs hh
  rw [hsame] at hgroupG
  obtain ⟨hnone, rfl⟩ | ⟨hsome, d, rfl⟩ := hgroupG
  · obtain ⟨-, rfl⟩ | ⟨hsome, -⟩ := hgroupH
    · rfl
    · exact absurd hnone hsome
  · obtain ⟨hnone, -⟩ | ⟨-, d', rfl⟩ := hgroupH
    · exact absurd hnone hsome
    · rfl

/-! ## A truncated ciphertext -/

/-- Between two commands of the host: the invariant holds, and nothing is pending. -/
structure AtRest (s : State) : Prop where
  inv : StepInv s
  busy : s.busy = false

section
variable {c : Cipher} {s t : State}

/-- An accepted command with its wait comes to rest. -/
theorem AtRest.commandWait (h : AtRest s) {op : Command} {n : BitVec 3} (haccepts : accepts op n s = true) :
    AtRest (commandWait c op n s) := by
  obtain ⟨-, hlegal⟩ := accepts_iff.1 haccepts
  rw [commandWait_accepted haccepts]
  exact ⟨stepInv_complete (stepInv_accept h.inv hlegal) c rfl, rfl⟩

theorem AtRest.writeDin (h : AtRest s) (d : Word) : AtRest (writeDin d s) :=
  ⟨stepInv_of_sameOperation h.inv rfl rfl rfl h.inv.cerr, h.busy⟩

theorem AtRest.runAct (h : AtRest s) {a : Act} (hrun : runAct c a s = some t) : AtRest t := by
  cases a with
  | push n d =>
    simp only [Machine.runAct] at hrun
    split_ifs at hrun with haccepts
    exact Option.some.inj hrun ▸ (h.writeDin d).commandWait haccepts
  | pop n =>
    simp only [Machine.runAct] at hrun
    split_ifs at hrun with haccepts
    exact Option.some.inj hrun ▸ h.commandWait haccepts

theorem AtRest.runActs (h : AtRest s) {acts : List Act} {out : List Byte}
    (hrun : runActs c acts s = some (t, out)) : AtRest t := by
  induction acts generalizing s out with
  | nil =>
    cases hrun
    exact h
  | cons a rest ih =>
    obtain ⟨v, out', hact, hrest, -⟩ := runActs_cons hrun
    exact ih (h.runAct hact) hrest

/-- A whole operation comes to rest. -/
theorem AtRest.runOperation (h : AtRest s) {init : Command} {acts : List Act} {pops : List (BitVec 3)}
    {out : List Byte} (hrun : runOperation c init acts pops s = some (t, out)) : AtRest t := by
  obtain ⟨u, taken, drained, hinit, hacts, hfinal, hpops, -⟩ := runOperation_eq_some hrun
  exact (((h.commandWait hinit).runActs hacts).commandWait hfinal).runActs hpops

/-- A write of POP finds nothing in the FIFO: it is refused, for its count where that is not legal, else for the empty
FIFO (R105, R114). -/
theorem issue_pop_empty (hbusy : s.busy = false) (hempty : s.ofifo = []) (n : BitVec 3) :
    issue (opCode .pop) n s = Refused s (if 1 ≤ n.toNat ∧ n.toNat ≤ 4 then .outEmpty else .badCount) := by
  by_cases hn : 1 ≤ n.toNat ∧ n.toNat ≤ 4
  · have hfault : commandFault .pop n s = .outEmpty := by
      have hpos : 0 < n.toNat := hn.1
      simp [commandFault, usesCount, countLegal_iff.2 hn, legalIn, isInit, hasRoom, hempty, hpos]
    rw [if_pos hn, issue_refused hbusy (commandOf_opCode .pop) (by simp [hfault]), hfault]
    rfl
  · have hillegal : countLegal n = false := eq_false_of_ne_true (mt countLegal_iff.1 hn)
    rw [if_neg hn]
    exact issue_badCount hbusy (commandOf_opCode .pop) rfl hillegal

end

/-- Settles O58: FINAL finds the incomplete block (`decryptOperation_end`), and in ERROR the FIFO is empty by the
invariant (R49 (b)). -/
theorem truncatedCiphertextEndsInError : Obligations.TruncatedCiphertextEndsInError := by
  intro c s t acts pops out hinv hready hrun hpartial
  have ⟨_, hbusy, _⟩ := hready
  obtain ⟨hinvEnd, hbusyEnd⟩ := AtRest.runOperation ⟨hinv, hbusy⟩ hrun
  cases decryptOperation_end hinv hready hrun with
  | truncated _ hstate herr =>
    obtain ⟨hempty, -⟩ := hinvEnd.error hstate
    refine ⟨hstate, herr, hempty, fun n => ?_⟩
    have hwrite : exec (.cmd (commandWord 5 n 0)) t = .next (issue (opCode .pop) n t) := by
      simp only [exec, execCmd, cmdOp_commandWord, cmdN_commandWord, opCode]
    rw [hwrite, issue_pop_empty hbusyEnd hempty]
  | badPadding hwhole => exact absurd hwhole hpartial
  | stripped ps last hlen => omega

end Sys2Proof.Proofs.StreamCommands
end

section
/-! PROOFS. Exceptions (spec/60_exceptions.md): errors do not nest. -/

namespace Sys2Proof.Proofs.Exceptions

open Sys2Proof Sys2Proof.Machine Sys2Proof.Claims Sys2Proof.Proofs.ArchState

/-- A command whose checks hold in ERROR keeps ERR or leads out of ERROR: what would write a code, FINAL and ABORT, is
illegal there, as INIT is, and CLEAR returns to IDLE (R111, R215). -/
theorem commandEffect_err_of_error (c : Cipher) {p : Pend} {s : State} (hs : s.state = .error)
    (hlegal : commandFault p.op p.n s = .none) :
    (commandEffect c p s).err = s.err ∨ (commandEffect c p s).state = .idle := by
  obtain ⟨op, n, d⟩ := p
  cases op <;> dsimp only [commandEffect]
  case nop => exact .inl rfl
  case push => rw [pushOp_frame]; exact .inl rfl
  case pop => exact .inl rfl
  case clear => exact .inr rfl
  case initEnc =>
    obtain ⟨hidle, -⟩ := accepted_init (.inl rfl) hlegal
    simp [hs] at hidle
  case initDec =>
    obtain ⟨hidle, -⟩ := accepted_init (.inr rfl) hlegal
    simp [hs] at hidle
  case final =>
    obtain ⟨hactive, -⟩ := accepted_final hlegal
    simp [hs] at hactive
  case abort => simpa [hs] using accepted_abort hlegal

/-- Settles O47: host accesses and waiting keep ERR by their frames, a reset leaves ERROR, and a completion that stays
in ERROR keeps ERR because the invariant says that the pending command's checks still hold. -/
theorem errorsDoNotNest : Obligations.ErrorsDoNotNest := by
  intro s t h hstep hbefore hafter
  obtain ⟨a, rest, i, -, hdecode, hexec⟩ | ⟨p, -, hp, -, rfl⟩ | ⟨rest, -, rfl⟩ | ⟨-, -, rfl⟩ := step_cases hstep
  · rw [hostAccess_frame hdecode hexec]; rfl
  · obtain hkeep | hidle := commandEffect_err_of_error (s := withInputs s.inputs.tail s) Config.cipher hbefore
      (h.stillLegal p hp)
    · exact hkeep
    · exact absurd (hidle.symm.trans hafter) (by decide)
  · exact absurd hafter (by decide : OpState.idle ≠ .error)
  · rfl

end Sys2Proof.Proofs.Exceptions
end

section
/-! PROOFS. Reset and hazards (spec/70_reset_and_hazards.md): a reset restores the record, an idle machine waits, a
pending command completes, ABORT and CLEAR come back to the reset state, and draining makes room. -/

namespace Sys2Proof.Proofs.ResetAndHazards

open Sys2Proof Sys2Proof.Machine Sys2Proof.Claims Sys2Proof.Proofs.ArchState Sys2Proof.Proofs.Encoding
  Sys2Proof.Proofs.CommandIssue Sys2Proof.Proofs.SessionCommands

/-! ## Reset and waiting -/

/-- Settles O35: it is the law `step_reset`, with `resetStep` written out. -/
theorem resetStepRestoresTheRecord : Obligations.ResetStepRestoresTheRecord :=
  fun _ _ hinputs => step_reset hinputs

/-- Settles O36: it is the law `step_wait`, with `withInputs` written out. -/
theorem withoutACommandNothingHappens : Obligations.WithoutACommandNothingHappens :=
  fun _ hbusy hnext => step_wait hbusy hnext

/-! ## A pending command completes -/

/-- A step orders nothing new, so what is to come stays admitted. -/
theorem admitted_of_step {s t : State} (hstep : step s = .next t) (h : Admitted s.inputs) : Admitted t.inputs :=
  fun a ha => h a (List.mem_of_mem_tail (step_inputs hstep ▸ ha))

/-- Settles O48, by induction on the orders to come: a step that leaves BUSY up takes one of them, and when none is left
the step is the completion. -/
theorem pendingCommandCompletes : Obligations.PendingCommandCompletes := by
  intro s hinv hbusy hadmitted
  induction horders : s.inputs generalizing s with
  | nil =>
    obtain ⟨t, hstep⟩ := step_next_of_admitted hinv hadmitted
    obtain ⟨p, -, rfl⟩ := step_of_completionIsNext hstep ⟨hbusy, .inl horders⟩
    exact ⟨1, _, le_rfl, run_of_next hstep, rfl⟩
  | cons order rest ih =>
    obtain ⟨t, hstep⟩ := step_next_of_admitted hinv hadmitted
    cases hbusy' : t.busy with
    | false => exact ⟨1, t, by simp, run_of_next hstep, hbusy'⟩
    | true =>
      have hrest : t.inputs = rest := by rw [step_inputs hstep, horders, List.tail_cons]
      obtain ⟨k, u, hk, hrun, hdone⟩ := ih t (everyStepKeepsTheInvariant s t hinv hstep) hbusy'
        (admitted_of_step hstep hadmitted) hrest
      exact ⟨k + 1, u, Nat.succ_le_succ hk, (run_of_next hstep).trans hrun, hdone⟩

/-! ## Commands that are accepted, with their wait -/

/-- A command whose own conditions hold while BUSY = 0 is accepted (R105). -/
theorem accepts_of_acceptedWhen {op : Command} {n : BitVec 3} {s : State} (hbusy : s.busy = false)
    (h : AcceptedWhen op n s) : accepts op n s = true :=
  accepts_iff.2 ⟨hbusy, commandFault_of_acceptedWhen h⟩

section
variable (c : Cipher) (n : BitVec 3) {s : State}

/-- ABORT with its wait ends the operation in ERROR (R135). -/
theorem commandWait_abort (hbusy : s.busy = false) (h : AcceptedWhen .abort n s) :
    commandWait c .abort n s = Completed (Ended s .ioError) := by
  rw [commandWait_accepted (accepts_of_acceptedWhen hbusy h), complete, commandEffect_abort]
  rfl

/-- CLEAR with its wait returns to IDLE (R136). -/
theorem commandWait_clear (hbusy : s.busy = false) (h : AcceptedWhen .clear n s) :
    commandWait c .clear n s = Completed (returnToIdle s) := by
  rw [commandWait_accepted (accepts_of_acceptedWhen hbusy h), complete, commandEffect_clear]
  rfl

/-- POP with its wait takes its bytes from the head of the FIFO (R176). -/
theorem commandWait_pop (hbusy : s.busy = false) (h : AcceptedWhen .pop n s) :
    commandWait c .pop n s = Completed (fifoPop n.toNat s) := by
  rw [commandWait_accepted (accepts_of_acceptedWhen hbusy h)]
  rfl

end

/-! ## ABORT, then CLEAR -/

/-- Settles O50: ABORT clears the FIFO and the data path and leads to ERROR, where CLEAR is accepted and leads to IDLE.
Neither writes IVW, which the invariant says is 0 outside IDLE (R49, R136). -/
theorem abortThenClearResembleReset : Obligations.AbortThenClearResembleReset := by
  intro c s hinv hbusy hactive
  have hivw : s.ivw = 0 := hinv.ivw (by rcases hactive with h | h | h <;> simp [h])
  refine ⟨_, rfl, ?_⟩
  rw [commandWait_abort c 0 hbusy hactive, commandWait_clear c 0 rfl (.inr (.inl rfl))]
  simp only [Completed, Ended, returnToIdle, State.reset, zeroBlock, hivw]

/-! ## Draining -/

/-- Settles O51: with more than 16 bytes held, POP's conditions hold for 4; with at most 16, there is room for one more
block, the most that a PUSH or FINAL outputs (R113). -/
theorem drainingCannotDeadlock : Obligations.DrainingCannotDeadlock := by
  refine fun c s hbusy => ⟨fun hfull => ?_, fun hroom hactive => ⟨?_, fun n hlow hhigh => ?_⟩⟩
  · have hpop : AcceptedWhen .pop 4 s := ⟨by decide, by decide, le_trans (by decide) hfull.le⟩
    refine ⟨accepts_of_acceptedWhen hbusy hpop, ?_⟩
    rw [commandWait_pop c 4 hbusy hpop]
    have hdrop : (s.ofifo.drop 4).length + 4 = s.ofifo.length := by rw [List.length_drop]; omega
    exact ⟨hdrop, rfl⟩
  · exact accepts_of_acceptedWhen hbusy ⟨hactive, hroom⟩
  · exact accepts_of_acceptedWhen hbusy ⟨hlow, hhigh, hactive, fun _ => by split_ifs <;> omega⟩

end Sys2Proof.Proofs.ResetAndHazards
end
